-- ==== Sys2Proof/Word.lean ====
section
/-! DEFINITION. The widths the spec names: bytes, command words, the pin word, buffer numbers. -/

namespace Sys2Proof

/-- One 8-bit stored intensity, raw channel value or threshold (R11, R143). -/
abbrev Byte := BitVec 8

/-- One 96-bit command word `cmd[95:0]` of format C96 (R92). -/
abbrev Cmd := BitVec 96

/-- One of the three 32-bit words a command is transferred as (R92). -/
abbrev Word32 := BitVec 32

/-- The levels of the fourteen output lines, bit positions as R29. -/
abbrev Pins := BitVec 14

/-- A buffer reference: the 1-bit buffer number, 0 for buffer A and 1 for buffer B (R11, R200). -/
abbrev BufId := BitVec 1

/-- A value of a pin field, right aligned; six bits is the widest field, RGB (R29). -/
abbrev FieldVal := BitVec 6

end Sys2Proof
end

