-- ==== Sys2Proof/Config.lean ====
section
/-! DEFINITION. What an instance of the engine fixes (geometry, the gamma table, the two unread delays) and the
values the environment draws: nothing in Lean can evaluate the opaque constants of this file. -/

namespace Sys2Proof

/-- Pixel rows of a frame buffer: 64 for this hardware (R8). DESIGN CHOICE: fixed; assumption log 9. -/
def Config.rows : Nat := 64

/-- Pixel columns of a frame buffer: 64 for this hardware (R8). DESIGN CHOICE: fixed; assumption log 9. -/
def Config.cols : Nat := 64

/-- ADDRESSABLE_ROWS, the number of row-select states: ROWS / 2 (R9). -/
def Config.addressableRows : Nat := 32

/-- ADDR_LINES, the address output lines in use (R12). -/
def Config.addrLines : Nat := 5

/-- NUM_BUFFERS, the frame buffer instances (R11). -/
def Config.numBuffers : Nat := 2

/-- A gamma table with exactly the four properties R13 lets a model assume: GammaZero, GammaFull, GammaMono and
GammaHalf. The default values only show that such a table exists; no table of the hardware is among them. -/
structure GammaTable where
  /-- The stored intensity of a raw channel value (R149). -/
  get : Byte → Byte := fun i => if i = 255 then 255 else i / 4
  /-- GammaZero. -/
  zero : get 0 = 0 := by decide
  /-- GammaFull. -/
  full : get 255 = 255 := by decide
  /-- GammaMono: one entry is never above the next. -/
  mono : ∀ i : Byte, i.toNat < 255 → (get i).toNat ≤ (get (i + 1)).toNat := by decide
  /-- GammaHalf, lower bound. -/
  halfLow : 32 ≤ (get 128).toNat := by decide
  /-- GammaHalf, upper bound. -/
  halfHigh : (get 128).toNat ≤ 47 := by decide
deriving Inhabited

/-- GAMMA, the read-only table of R36: an open parameter of the spec (R13), known only by its four properties.
Assumption log 5. -/
opaque Config.gamma : GammaTable

/-- T_LAT, the least time inside the latch pulse; no rule reads it (R14). Assumption log 12. -/
opaque Config.latchDelay : Nat

/-- T_OE, the least time before unblanking; no rule reads it (R14). Assumption log 12. -/
opaque Config.unblankDelay : Nat

/-- Who moves next: the Compositor, the Refresher, or nobody (the environment may cease stepping, R287). -/
inductive Turn where
  | compositor
  | refresher
  | nobody
deriving DecidableEq, Repr, Inhabited

/-- The answer of the pin-fault oracle to one line write (R233): success, or failure together with the
arbitrary value the failed field is left with (R163, R239); a field narrower than six bits takes the low bits. -/
inductive PinAnswer where
  | ok
  | failed (left : FieldVal)
deriving DecidableEq, Repr, Inhabited

/-- The schedule, a draw of the environment under no law (R70, R249): what is drawn when the state lists no turn.
Assumption log 1. -/
opaque Config.schedule : Nat → Turn

/-- The pin-fault oracle, a draw of the environment under no law (R233): what is drawn when the state lists no
answer. Assumption log 2. -/
opaque Config.pinOracle : Nat → PinAnswer

end Sys2Proof
end

