-- ==== Sys2Proof/Syntax.lean ====
section
/-! DEFINITION. The eighteen instructions of spec/opcode_table.json: seven commands of the Compositor (R91) and
eleven micro-operations of the Refresher (R101), and the three pseudo-instructions of R106. -/

namespace Sys2Proof

/-- The 24-bit colour operand as its three raw channel values (R92, R94). -/
structure Color where
  r : Byte
  g : Byte
  b : Byte
deriving DecidableEq, Repr

/-- The instructions. Coordinates are the signed integers `X`, `Y`, sizes and the bit depth the unsigned integers
`W`, `H`, `D` of R94. -/
inductive Instr where
  /-- CONFIGURE d (R140). -/
  | configure (d : Nat)
  /-- SET x, y, #RRGGBB (R121). -/
  | set (x y : Int) (c : Color)
  /-- FILL x, y, w, h, #RRGGBB (R122). -/
  | fill (x y : Int) (w h : Nat) (c : Color)
  /-- CLEAR (R123). -/
  | clear
  /-- GETBUF (R124). -/
  | getbuf
  /-- PUBLISH (R202). -/
  | publish
  /-- ACQUIRE (R203). -/
  | acquire
  /-- WAITF, phase 0 (R206). -/
  | waitf
  /-- SHDATA, phase 1 (R164). -/
  | shdata
  /-- SHCLKH, phase 2 (R165). -/
  | shclkh
  /-- SHCLKL, phase 3 (R166). -/
  | shclkl
  /-- BLANK, phase 4 (R167). -/
  | blank
  /-- LATL, phase 5 (R168). -/
  | latl
  /-- LATH, phase 6 (R169). -/
  | lath
  /-- ADDR, phase 7 (R170). -/
  | addr
  /-- UNBLANK, phase 8 (R171). -/
  | unblank
  /-- ENDBLANK, phase 9 (R172). -/
  | endblank
  /-- POLL, phase 10 (R207). -/
  | poll
deriving DecidableEq, Repr

/-- FRAME: one hand-off of the Compositor's loop (R106). -/
def Instr.frame : List Instr := [.publish, .acquire]

/-- HLINE x, y, w, #c (R106). -/
def Instr.hline (x y : Int) (w : Nat) (c : Color) : List Instr := [.fill x y w 1 c]

/-- VLINE x, y, h, #c (R106). -/
def Instr.vline (x y : Int) (h : Nat) (c : Color) : List Instr := [.fill x y 1 h c]

/-- The eleven phases of the sequencer; there are no others, so no arm for a reserved code (R101, R102).
Assumption log 18. -/
inductive Phase where
  | waitf
  | shdata
  | shclkh
  | shclkl
  | blank
  | latl
  | lath
  | addr
  | unblank
  | endblank
  | poll
deriving DecidableEq, Repr

end Sys2Proof
end

