-- ==== Sys2Proof/Machine/State.lean ====
section
/-! DEFINITION. The state of the engine as plain data, the reasons a step can stop, and the state after reset. -/

namespace Sys2Proof.Machine

/-- MODE, CR0 (R24). Assumption log 18. -/
inductive Mode where
  /-- 0: not yet configured. -/
  | unconf
  /-- 1: configured; the Refresher steps. -/
  | run
  /-- 2: a CONFIGURE was rejected. -/
  | cfgErr
  /-- 3: a line write failed. -/
  | halted
deriving DecidableEq, Repr

/-- The 2-bit value of MODE (R24). -/
def Mode.code : Mode → BitVec 2
  | .unconf => 0
  | .run => 1
  | .cfgErr => 2
  | .halted => 3

/-- SEQ, CR4: the sequencer position, which names the micro-operation the Refresher executes next (R21). -/
structure Seq where
  phase : Phase
  level : BitVec 8
  row : BitVec 5
  col : BitVec 6
deriving DecidableEq, Repr

/-- A field of PINS, written as one line-write event (R29, R103). -/
inductive Field where
  | rgb
  | addr
  | clk
  | lat
  | oe
deriving DecidableEq, Repr

/-- A line-write event: the field written and PINS after the write (R47, R103). -/
structure LineEvent where
  field : Field
  pins : Pins
deriving DecidableEq, Repr

/-- A stored pixel: three gamma-corrected 8-bit intensities (R11, R120). -/
structure Pixel where
  r : Byte
  g : Byte
  b : Byte
deriving DecidableEq, Repr

/-- The frame buffers, as the list of the bytes that are not zero (assumption log 6). -/
abbrev Memory := List Host.Cell

/-- The response codes (R97). -/
inductive RespCode where
  | ok
  | configError
  | ownership
  | illegalCmd
  | badState
deriving DecidableEq, Repr

/-- The whole state. CR7, THRESH, is combinational (R34) and is `Sys2Proof.Machine.thresh`. -/
structure State where
  /-- CR0 (R24). -/
  mode : Mode
  /-- CR1 (R25). -/
  bitDepth : BitVec 4
  /-- CR2 (R26). -/
  brightnessStep : BitVec 8
  /-- CR3 (R27). -/
  brightnessCount : BitVec 8
  /-- CR4 (R21, R28). -/
  seq : Seq
  /-- CR5 (R29). -/
  pins : Pins
  /-- CR6, C_OWN: the buffer the Compositor owns (R32). -/
  cOwn : Option BufId
  /-- CR6, R_OWN: the buffer the Refresher owns (R33). -/
  rOwn : Option BufId
  /-- CR6, TO_R: the slot `ToRefresher` (R30). -/
  toR : Option BufId
  /-- CR6, TO_C: the slot `ToCompositor` (R31). -/
  toC : Option BufId
  /-- CR8 (R35). -/
  resp : BitVec 16
  /-- FB[0] and FB[1] (R38). -/
  fb : Memory
  /-- TRACE, the ghost list of the line-write events so far, oldest first (R47).
  Assumption log 7. -/
  trace : List LineEvent
  /-- The model's own: the commands the Compositor issues from here on, the first one being issued (R40, R91).
  Assumption log 3. -/
  port : List Cmd
  /-- The model's own: who moves in the next steps, where that is listed (R70). Assumption log 1. -/
  turns : List Turn
  /-- The model's own: the oracle's answers to the next line writes, where they are listed (R233).
  Assumption log 2. -/
  pinAnswers : List PinAnswer
  /-- The model's own: how many values have been drawn from the opaque schedule and oracle. -/
  draws : Nat
deriving DecidableEq, Repr

/-- The reasons the machine stops. -/
inductive Fault where
  /-- SHDATA, or the swap of WAITF and POLL, with R_OWN empty. The spec gives it no effect, since R_OWN is never
  empty in a reachable state (R33, R44). Safe: the model stops where the hardware never is. -/
  | refresherOwnsNoBuffer
deriving DecidableEq, Repr

/-- The reasons an instruction has no meaning. -/
inductive Refusal where
  /-- An instruction without a meaning in this model; no arm raises it. Safe. -/
  | notModelled (mnemonic : String)
deriving DecidableEq, Repr

/-- The outcome of one step. -/
abbrev Result := Host.Outcome State Fault Refusal

/-- The machine after reset (R45, R46, R48, R270). The last four fields are the model's own: nothing is listed and
nothing has been drawn (DESIGN CHOICE, assumption log 17). PINS is the spec's own choice (assumption log 8). -/
def State.reset : State where
  mode := .unconf
  bitDepth := 0
  brightnessStep := 0
  brightnessCount := 0
  seq := ⟨.waitf, 0, 0, 0⟩
  pins := 0x3000
  cOwn := some 0
  rOwn := some 1
  toR := none
  toC := none
  resp := 0
  fb := []
  trace := []
  port := []
  turns := []
  pinAnswers := []
  draws := 0

end Sys2Proof.Machine
end

