-- ==== Sys2Proof/Machine/Memory.lean ====
section
/-! DEFINITION. The frame buffer memory: reads and writes of one byte and of one pixel, and its canonical form. -/

namespace Sys2Proof.Machine

/-- The bytes of one frame buffer: three for each pixel (R38). -/
def bufferBytes : Nat := Config.rows * Config.cols * 3

/-- The bytes of both frame buffers (R38). -/
def memoryBytes : Nat := Config.numBuffers * bufferBytes

/-- What an address that is not listed holds: the reset contents, stored intensity 0 (R45). -/
def unlistedByte : Byte := 0

/-- The byte at an address. -/
def Memory.read : Memory → Nat → Byte
  | [], _ => unlistedByte
  | (a', v) :: m, a => if a = a' then v else Memory.read m a

/-- `m` with the byte `v` at address `a`, which is below every address of `m`. -/
def Memory.push (a : Nat) (v : Byte) (m : Memory) : Memory :=
  if v = unlistedByte then m else (a, v) :: m

/-- The memory after storing the byte `v` at address `a`. -/
def Memory.write (a : Nat) (v : Byte) : Memory → Memory
  | [] => Memory.push a v []
  | (a', v') :: m =>
    if a < a' then Memory.push a v ((a', v') :: m)
    else if a = a' then Memory.push a v m
    else (a', v') :: Memory.write a v m

/-- The canonical form of a memory whose addresses are all at least `lo`: rising addresses inside the frame buffers,
and no byte listed that an unlisted address reads as. -/
def Memory.wfFrom (lo : Nat) : Memory → Bool
  | [] => true
  | (a, v) :: m => decide (lo ≤ a) && decide (a < memoryBytes) && (v != unlistedByte) && Memory.wfFrom (a + 1) m

/-- The canonical form. -/
def Memory.wf (m : Memory) : Bool := Memory.wfFrom 0 m

/-- The address of the first byte, R, of pixel (b, y, x); G and B follow it. The spec addresses whole pixels by
(b, y, x) (R38, R61); the flat numbering is the model's (assumption log 6). -/
def pixelAddr (b : BufId) (y x : Nat) : Nat := b.toNat * bufferBytes + (y * Config.cols + x) * 3

/-- `FbRead(b, y, x)` of the notation (00_scope section 6). -/
def fbRead (m : Memory) (b : BufId) (y x : Nat) : Pixel :=
  ⟨Memory.read m (pixelAddr b y x), Memory.read m (pixelAddr b y x + 1), Memory.read m (pixelAddr b y x + 2)⟩

/-- `FbWrite(b, y, x, p)` of the notation (00_scope section 6). -/
def fbWrite (b : BufId) (y x : Nat) (p : Pixel) (m : Memory) : Memory :=
  Memory.write (pixelAddr b y x) p.r
    (Memory.write (pixelAddr b y x + 1) p.g (Memory.write (pixelAddr b y x + 2) p.b m))

/-- The address is one of the bytes of buffer `b`. -/
def inBuffer (b : BufId) (a : Nat) : Bool :=
  decide (b.toNat * bufferBytes ≤ a) && decide (a < (b.toNat + 1) * bufferBytes)

/-- Every byte of buffer `b` set to zero, in one pass (R123). -/
def fbClear (b : BufId) (m : Memory) : Memory := m.filter fun c => !inBuffer b c.1

/-- Every pixel position (row, column) of a buffer, rising. -/
def gridCells : List (Nat × Nat) :=
  (List.range Config.rows).flatMap fun y => (List.range Config.cols).map fun x => (y, x)

/-- The pixel `p` written at every position of the list that satisfies `inside`. -/
def fbWriteWhere (b : BufId) (inside : Nat → Nat → Bool) (p : Pixel) (cells : List (Nat × Nat)) (m : Memory) : Memory :=
  cells.foldr (fun c m => if inside c.1 c.2 then fbWrite b c.1 c.2 p m else m) m

end Sys2Proof.Machine
end

