-- ==== Sys2Proof/Machine/Operands.lean ====
section
/-! DEFINITION. The operand forms: the colour as it is stored, the bounds test of a pixel write, the rectangle of
FILL, the response word, and the row slot and lanes of SHDATA. -/

namespace Sys2Proof.Machine

/-- The pixel a colour is stored as: GAMMA of each raw channel value (R120). -/
def storedPixel (c : Color) : Pixel :=
  ⟨Config.gamma.get c.r, Config.gamma.get c.g, Config.gamma.get c.b⟩

/-- The pixel write lies in the grid; compared as integers of unbounded width (R125). -/
def inBounds (x y : Int) : Bool :=
  decide (0 ≤ x ∧ x < Config.cols ∧ 0 ≤ y ∧ y < Config.rows)

/-- Position (row `py`, column `px`) is a pixel of the rectangle with least corner (x, y), width `w` and height `h`;
the sums do not wrap (R122). -/
def inRect (x y : Int) (w h : Nat) (py px : Nat) : Bool :=
  decide (x ≤ px ∧ (px : Int) < x + w ∧ y ≤ py ∧ (py : Int) < y + h)

/-- The 8-bit value of a response code (R97). -/
def RespCode.code : RespCode → BitVec 8
  | .ok => 0x00
  | .configError => 0x01
  | .ownership => 0x02
  | .illegalCmd => 0x03
  | .badState => 0x04

/-- RESP: the code in bits 15:8, the data in bits 7:0 (R97). -/
def respWord (code : RespCode) (data : BitVec 8) : BitVec 16 := code.code ++ data

/-- A buffer number as the data byte of a response (R97). -/
def bufData (b : BufId) : BitVec 8 := b.setWidth 8

/-- The ON predicate: an unsigned 8-bit comparison, greater or equal (R145). -/
def isOn (stored threshold : Byte) : Bool := threshold.ule stored

/-- The six-lane comparison of a row slot entry with a threshold: R1 in bit 0, B2 in bit 5, true drives the line
high (R162). -/
def laneBits (top bottom : Pixel) (t : Byte) : FieldVal :=
  BitVec.ofBool (isOn bottom.b t) ++ BitVec.ofBool (isOn bottom.g t) ++ BitVec.ofBool (isOn bottom.r t) ++
    BitVec.ofBool (isOn top.b t) ++ BitVec.ofBool (isOn top.g t) ++ BitVec.ofBool (isOn top.r t)

/-- `RowSlot(b, r, c)`: the top-half pixel of row `r` and the bottom-half pixel of row `r + AR` (R37). -/
def rowSlot (m : Memory) (b : BufId) (r c : Nat) : Pixel × Pixel :=
  (fbRead m b r c, fbRead m b (r + Config.addressableRows) c)

/-- `Lanes(b, r, c, t)` (R162). -/
def lanes (m : Memory) (b : BufId) (r c : Nat) (t : Byte) : FieldVal :=
  laneBits (rowSlot m b r c).1 (rowSlot m b r c).2 t

/-- `brightness_step = 2^(8 - bit_depth)` (R141). -/
def stepOfDepth (d : Nat) : Nat := 2 ^ (8 - d)

/-- `brightness_count = 2^bit_depth - 1` (R142). -/
def countOfDepth (d : Nat) : Nat := 2 ^ d - 1

/-- `threshold(l) = min(l × brightness_step, 255)` on unbounded integers (R144). -/
def thresholdNat (level step : Nat) : Nat := min (level * step) 255

end Sys2Proof.Machine
end

