-- ==== Sys2Proof/Machine/Flags.lean ====
section
/-! DEFINITION. The one-bit conditions: the two status outputs, the valid bits of the exchange (R23), and the enable
of a micro-operation. -/

namespace Sys2Proof.Machine

/-- CFGERR, a view of MODE (R23). -/
def cfgErrFlag (s : State) : Bool := s.mode == .cfgErr

/-- FAULT, a view of MODE (R23). -/
def faultFlag (s : State) : Bool := s.mode == .halted

/-- `TO_R.valid` (R23). -/
def toRValid (s : State) : Bool := s.toR.isSome

/-- `TO_C.valid` (R23). -/
def toCValid (s : State) : Bool := s.toC.isSome

/-- `C_OWN.valid` (R23). -/
def cOwnValid (s : State) : Bool := s.cOwn.isSome

/-- `R_OWN.valid` (R23). -/
def rOwnValid (s : State) : Bool := s.rOwn.isSome

/-- A micro-operation is enabled iff MODE = RUN and SEQ.phase is its code (R161, 42_panel_driver section 4). -/
def enabled (p : Phase) (s : State) : Bool := s.mode == .run && s.seq.phase == p

end Sys2Proof.Machine
end

