-- ==== Sys2Proof/Machine/Ops.lean ====
section
/-! DEFINITION. The named operations: the response, the slot primitive, the swap, the fields of PINS, the line write,
and the entry of the two errors. There is no return from either error (R243). -/

namespace Sys2Proof.Machine

/-! ## Completing a command -/

/-- `respond(code, data)`: RESP is written and the command being issued is complete, so the port goes on to the next
one (R35, R40, R97). -/
def respond (code : RespCode) (data : BitVec 8) (s : State) : State :=
  { s with resp := respWord code data, port := s.port.tail }

/-- The ILLEGAL_CMD refusal: a response and nothing else (R236). -/
def refuseIllegal (s : State) : State := respond .illegalCmd 0 s

/-- The OWNERSHIP refusal: a response and nothing else (R235). -/
def refuseOwnership (s : State) : State := respond .ownership 0 s

/-- The BAD_STATE refusal: a response and nothing else (R237). -/
def refuseBadState (s : State) : State := respond .badState 0 s

/-! ## ConfigError -/

/-- ConfigError entry: MODE and RESP, and nothing else (R238). -/
def raiseConfigError (s : State) : State := respond .configError 0 { s with mode := .cfgErr }

/-! ## The slot primitive (R201) and the swap -/

/-- `signal(s, b)`: the slot holds `b`, whatever it held. -/
def slotSignal {α : Type} (_slot : Option α) (b : α) : Option α := some b

/-- `try_take(s)`: what the slot held, and the slot emptied. The same take ends a `wait` (R74). -/
def slotTryTake {α : Type} (slot : Option α) : Option α × Option α := (slot, none)

/-- `Swap(n)` for a buffer `n` just taken out of TO_R: the Refresher's buffer `old` goes to TO_C and `n` becomes the
Refresher's; the take and the swap are one atomic step (R205). -/
def swap (n old : BufId) (s : State) : State :=
  { s with toR := (slotTryTake s.toR).2, toC := slotSignal s.toC old, rOwn := some n }

/-! ## The fields of PINS (R29) -/

/-- The lowest bit of a field. -/
def Field.low : Field → Nat
  | .rgb => 0
  | .addr => 6
  | .clk => 11
  | .lat => 12
  | .oe => 13

/-- How many lines a field has. -/
def Field.width : Field → Nat
  | .rgb => 6
  | .addr => 5
  | .clk => 1
  | .lat => 1
  | .oe => 1

/-- The bits of a field. -/
def Field.mask : Field → Pins
  | .rgb => 0x003F
  | .addr => 0x07C0
  | .clk => 0x0800
  | .lat => 0x1000
  | .oe => 0x2000

/-- `PINS.f <- v`: exactly the bits of field `f` change (R163). -/
def setField (f : Field) (v : FieldVal) (p : Pins) : Pins :=
  (p &&& ~~~f.mask) ||| ((v.setWidth 14 <<< f.low) &&& f.mask)

/-- The value of a field, right aligned. -/
def getField (f : Field) (p : Pins) : FieldVal := ((p &&& f.mask) >>> f.low).setWidth 6

/-! ## The pin-fault oracle -/

/-- The oracle's answer to the next line write: the listed one, or one drawn under no law (R233). -/
def pinAnswer (s : State) : PinAnswer :=
  match s.pinAnswers with
  | a :: _ => a
  | [] => Config.pinOracle s.draws

/-- The answer has been given: it is no longer listed, or one more value has been drawn. -/
def dropAnswer (s : State) : State :=
  match s.pinAnswers with
  | _ :: rest => { s with pinAnswers := rest }
  | [] => { s with draws := s.draws + 1 }

/-! ## The line write and PinError -/

/-- A line write that succeeds: the field, the event, and the successor position (R163). -/
def lineWritten (f : Field) (v : FieldVal) (next : Seq) (s : State) : State :=
  { s with pins := setField f v s.pins, trace := s.trace ++ [⟨f, setField f v s.pins⟩], seq := next }

/-- PinError entry: the written field is left with an arbitrary value, MODE becomes HALTED, and nothing else
changes; SEQ stays at the failing micro-operation (R239). -/
def raisePinError (f : Field) (left : FieldVal) (s : State) : State :=
  { s with pins := setField f left s.pins, mode := .halted }

/-- `PinWrite(f, v)` and, if it succeeds, the write of SEQ that ends the micro-operation (R163). -/
def pinWrite (f : Field) (v : FieldVal) (next : Seq) (s : State) : State :=
  match pinAnswer s with
  | .ok => lineWritten f v next (dropAnswer s)
  | .failed left => raisePinError f left (dropAnswer s)

/-- A micro-operation that writes one line: it has a step only when it is enabled, and without a step nothing
changes (R161; assumption log 10). -/
def lineMicroOp (p : Phase) (f : Field) (v : FieldVal) (next : Seq) (s : State) : State :=
  if enabled p s then pinWrite f v next s else s

/-! ## The sequencer -/

/-- THRESH, CR7: the brightness threshold of the current level, combinational (R34, R144). -/
def thresh (s : State) : Byte := BitVec.ofNat 8 (thresholdNat s.seq.level.toNat s.brightnessStep.toNat)

/-- The first position of a full cycle (R206, R207). -/
def cycleStart : Seq := ⟨.shdata, 1, 0, 0⟩

/-- The same position in another phase. -/
def Seq.inPhase (q : Seq) (p : Phase) : Seq := { q with phase := p }

end Sys2Proof.Machine
end

