-- ==== Sys2Proof/Machine/Brightness.lean ====
section
/-! DEFINITION. The brightness encoder's command CONFIGURE. -/

namespace Sys2Proof.Machine

/-- The brightness registers and MODE of an accepted bit depth (R140, R141, R142). -/
def setBrightness (d : Nat) (s : State) : State :=
  { s with
    mode := .run
    bitDepth := BitVec.ofNat 4 d
    brightnessStep := BitVec.ofNat 8 (stepOfDepth d)
    brightnessCount := BitVec.ofNat 8 (countOfDepth d) }

/-- CONFIGURE d (R140): the state check comes before the operand check (R242). -/
def execConfigure (d : Nat) (s : State) : Result :=
  if s.mode ≠ .unconf then .next (refuseBadState s)
  else if 1 ≤ d ∧ d ≤ 8 then .next (respond .ok 0 (setBrightness d s))
  else .next (raiseConfigError s)

end Sys2Proof.Machine
end

