-- ==== Sys2Proof/Machine/Exchange.lean ====
section
/-! DEFINITION. The buffer exchange: PUBLISH and ACQUIRE of the Compositor, WAITF and POLL of the Refresher. A held
instruction has no step: nothing changes and it is still the next one of its agent (R252; assumption log 4). -/

namespace Sys2Proof.Machine

/-- PUBLISH (R202): the Compositor's buffer goes to TO_R. -/
def execPublish (s : State) : Result :=
  match s.cOwn with
  | none => .next (refuseOwnership s)
  | some b => .next (respond .ok 0 { s with toR := slotSignal s.toR b, cOwn := none })

/-- ACQUIRE (R203): refused while a buffer is owned, held while TO_C is empty. -/
def execAcquire (s : State) : Result :=
  match s.cOwn with
  | some _ => .next (refuseOwnership s)
  | none =>
    match slotTryTake s.toC with
    | (none, _) => .next s
    | (some b, emptied) => .next (respond .ok (bufData b) { s with toC := emptied, cOwn := some b })

/-- WAITF (R206): held until MODE = RUN and TO_R is full, then the swap and the first position of a cycle. -/
def execWaitf (s : State) : Result :=
  if enabled .waitf s then
    match s.toR with
    | none => .next s
    | some n =>
      match s.rOwn with
      | none => .fault .refresherOwnsNoBuffer
      | some old => .next { swap n old s with seq := cycleStart }
  else .next s

/-- POLL (R207): the swap if a frame is waiting, and the first position of the next cycle. It never holds. -/
def execPoll (s : State) : Result :=
  if enabled .poll s then
    match s.toR with
    | none => .next { s with seq := cycleStart }
    | some n =>
      match s.rOwn with
      | none => .fault .refresherOwnsNoBuffer
      | some old => .next { swap n old s with seq := cycleStart }
  else .next s

end Sys2Proof.Machine
end

