-- ==== Sys2Proof/Machine/FrameBuffer.lean ====
section
/-! DEFINITION. The frame buffer commands SET, FILL, CLEAR, GETBUF. None of them reads MODE (R126). -/

namespace Sys2Proof.Machine

/-- SET x, y, c (R121): one pixel of the Compositor's buffer, clipping silently. -/
def execSet (x y : Int) (c : Color) (s : State) : Result :=
  match s.cOwn with
  | none => .next (refuseOwnership s)
  | some b =>
    .next (respond .ok 0
      (if inBounds x y then { s with fb := fbWrite b y.toNat x.toNat (storedPixel c) s.fb } else s))

/-- FILL x, y, w, h, c (R122): every pixel of the rectangle that lies in the grid. -/
def execFill (x y : Int) (w h : Nat) (c : Color) (s : State) : Result :=
  match s.cOwn with
  | none => .next (refuseOwnership s)
  | some b =>
    .next (respond .ok 0 { s with fb := fbWriteWhere b (inRect x y w h) (storedPixel c) gridCells s.fb })

/-- CLEAR (R123): every stored intensity of the Compositor's buffer becomes zero, past the gamma table. -/
def execClear (s : State) : Result :=
  match s.cOwn with
  | none => .next (refuseOwnership s)
  | some b => .next (respond .ok 0 { s with fb := fbClear b s.fb })

/-- GETBUF (R124): the number of the Compositor's buffer. -/
def execGetbuf (s : State) : Result :=
  match s.cOwn with
  | none => .next (refuseOwnership s)
  | some b => .next (respond .ok (bufData b) s)

end Sys2Proof.Machine
end

