-- ==== Sys2Proof/Machine/Scan.lean ====
section
/-! DEFINITION. The nine micro-operations of the panel driver that write a line. -/

namespace Sys2Proof.Machine

/-- SHDATA (R164): the six colour lines of one column of the Refresher's buffer. -/
def execShdata (s : State) : Result :=
  if enabled .shdata s then
    match s.rOwn with
    | none => .fault .refresherOwnsNoBuffer
    | some b =>
      .next (pinWrite .rgb (lanes s.fb b s.seq.row.toNat s.seq.col.toNat (thresh s)) (s.seq.inPhase .shclkh) s)
  else .next s

/-- SHCLKH (R165): the shift clock high. -/
def execShclkh (s : State) : Result := .next (lineMicroOp .shclkh .clk 1 (s.seq.inPhase .shclkl) s)

/-- Where SHCLKL goes: the next column, or BLANK after the last one (R166). -/
def afterClock (q : Seq) : Seq :=
  if q.col.toNat < Config.cols - 1 then { q with phase := .shdata, col := q.col + 1 } else q.inPhase .blank

/-- SHCLKL (R166): the shift clock low, and the next column. -/
def execShclkl (s : State) : Result := .next (lineMicroOp .shclkl .clk 0 (afterClock s.seq) s)

/-- BLANK (R167): output-enable high. -/
def execBlank (s : State) : Result := .next (lineMicroOp .blank .oe 1 (s.seq.inPhase .latl) s)

/-- LATL (R168): the latch line low. -/
def execLatl (s : State) : Result := .next (lineMicroOp .latl .lat 0 (s.seq.inPhase .lath) s)

/-- LATH (R169): the latch line high; T_LAT is not modelled (R14). -/
def execLath (s : State) : Result := .next (lineMicroOp .lath .lat 1 (s.seq.inPhase .addr) s)

/-- ADDR (R170): the row number on the address lines, line 0 the least significant bit. -/
def execAddr (s : State) : Result :=
  .next (lineMicroOp .addr .addr (s.seq.row.setWidth 6) (s.seq.inPhase .unblank) s)

/-- Where UNBLANK goes: the next row, the next level, or the end of the cycle (R171). -/
def afterUnblank (count : BitVec 8) (q : Seq) : Seq :=
  if q.row.toNat < Config.addressableRows - 1 then ⟨.shdata, q.level, q.row + 1, 0⟩
  else if q.level.toNat < count.toNat then ⟨.shdata, q.level + 1, 0, 0⟩
  else q.inPhase .endblank

/-- UNBLANK (R171): output-enable low; T_OE is not modelled (R14). -/
def execUnblank (s : State) : Result :=
  .next (lineMicroOp .unblank .oe 0 (afterUnblank s.brightnessCount s.seq) s)

/-- ENDBLANK (R172): output-enable high at the end of a full cycle. -/
def execEndblank (s : State) : Result := .next (lineMicroOp .endblank .oe 1 (s.seq.inPhase .poll) s)

end Sys2Proof.Machine
end

