-- ==== Sys2Proof/Machine/Dispatch.lean ====
section
/-! DEFINITION. One arm per instruction: each calls its meaning. -/

namespace Sys2Proof.Machine

def exec (i : Instr) (s : State) : Host.Outcome State Fault Refusal :=
  match i with
  | .configure d => Sys2Proof.Machine.execConfigure d s
  | .set x y c => Sys2Proof.Machine.execSet x y c s
  | .fill x y w h c => Sys2Proof.Machine.execFill x y w h c s
  | .clear => Sys2Proof.Machine.execClear s
  | .getbuf => Sys2Proof.Machine.execGetbuf s
  | .publish => Sys2Proof.Machine.execPublish s
  | .acquire => Sys2Proof.Machine.execAcquire s
  | .waitf => Sys2Proof.Machine.execWaitf s
  | .shdata => Sys2Proof.Machine.execShdata s
  | .shclkh => Sys2Proof.Machine.execShclkh s
  | .shclkl => Sys2Proof.Machine.execShclkl s
  | .blank => Sys2Proof.Machine.execBlank s
  | .latl => Sys2Proof.Machine.execLatl s
  | .lath => Sys2Proof.Machine.execLath s
  | .addr => Sys2Proof.Machine.execAddr s
  | .unblank => Sys2Proof.Machine.execUnblank s
  | .endblank => Sys2Proof.Machine.execEndblank s
  | .poll => Sys2Proof.Machine.execPoll s

end Sys2Proof.Machine
end

