-- ==== Sys2Proof/WellFormed.lean ====
section
/-! DEFINITION. Which operand values an encoding of the instruction can hold (R94). -/

namespace Sys2Proof

/-- A coordinate of a pixel write: a two's-complement signed 16-bit number (R94). -/
abbrev coordFits (v : Int) : Prop := -32768 ≤ v ∧ v ≤ 32767

/-- A rectangle size: an unsigned 16-bit number (R94). -/
abbrev sizeFits (n : Nat) : Prop := n ≤ 65535

/-- The bit depth operand: an unsigned 8-bit number; values outside 1 to 8 are well formed and are rejected
by CONFIGURE itself (R94, R232). -/
abbrev depthFits (n : Nat) : Prop := n ≤ 255

/-- The operands fit their fields, as a Bool. -/
def wellFormed : Instr → Bool
  | .configure d => decide (depthFits d)
  | .set x y _ => decide (coordFits x ∧ coordFits y)
  | .fill x y w h _ => decide (coordFits x ∧ coordFits y ∧ sizeFits w ∧ sizeFits h)
  | .clear => true
  | .getbuf => true
  | .publish => true
  | .acquire => true
  | .waitf => true
  | .shdata => true
  | .shclkh => true
  | .shclkl => true
  | .blank => true
  | .latl => true
  | .lath => true
  | .addr => true
  | .unblank => true
  | .endblank => true
  | .poll => true

/-- The instruction is one that an encoding can express. -/
abbrev WellFormed (i : Instr) : Prop := wellFormed i = true

end Sys2Proof
end

