-- ==== Sys2Proof/Decode.lean ====
section
/-! DEFINITION. The encodings of the commands (format C96) and of the micro-operations (format SEQ4): the field
positions, the decoder (total, rejecting by name), the encoder, and the match and mask table of the spec. -/

namespace Sys2Proof

/-! ## The fields of a command word (R92) -/

/-- The command word transferred as W0, W1, W2: W0 is cmd[31:0] (R92). Assumption log 15. -/
def cmdOfWords (w0 w1 w2 : Word32) : Cmd :=
  w2.setWidth 96 <<< 64 ||| w1.setWidth 96 <<< 32 ||| w0.setWidth 96

/-- The three words of a command, in the order in which they are transferred (R92). -/
def cmdWords (w : Cmd) : List Word32 := [w.extractLsb' 0 32, w.extractLsb' 32 32, w.extractLsb' 64 32]

/-- `op` = cmd[31:24]. -/
def cmdOp (w : Cmd) : BitVec 8 := w.extractLsb' 24 8
/-- `color[23:16]`, the raw red channel. -/
def cmdR (w : Cmd) : Byte := w.extractLsb' 16 8
/-- `color[15:8]`, the raw green channel. -/
def cmdG (w : Cmd) : Byte := w.extractLsb' 8 8
/-- `color[7:0]`, the raw blue channel; the bit depth operand shares its position. -/
def cmdB (w : Cmd) : Byte := w.extractLsb' 0 8
/-- `x` = cmd[47:32]. -/
def cmdX (w : Cmd) : BitVec 16 := w.extractLsb' 32 16
/-- `y` = cmd[63:48]. -/
def cmdY (w : Cmd) : BitVec 16 := w.extractLsb' 48 16
/-- `w` = cmd[79:64]. -/
def cmdW (w : Cmd) : BitVec 16 := w.extractLsb' 64 16
/-- `h` = cmd[95:80]. -/
def cmdH (w : Cmd) : BitVec 16 := w.extractLsb' 80 16

/-- The colour operand (R94). -/
def cmdColor (w : Cmd) : Color := ⟨cmdR w, cmdG w, cmdB w⟩

/-- `x` and `y` are zero. -/
def noOrigin (w : Cmd) : Bool := cmdX w == 0 && cmdY w == 0
/-- `w` and `h` are zero. -/
def noSize (w : Cmd) : Bool := cmdW w == 0 && cmdH w == 0
/-- cmd[23:8] is zero. -/
def noHighColor (w : Cmd) : Bool := cmdR w == 0 && cmdG w == 0
/-- `color` is zero. -/
def noColor (w : Cmd) : Bool := noHighColor w && cmdB w == 0

/-! ## The decoder -/

/-- Why a code is no instruction. -/
inductive Reject where
  /-- The opcode is none of the seven (R95). -/
  | reservedOpcode (op : BitVec 8)
  /-- A field that the command does not use is not zero (R93). -/
  | unusedFieldNotZero (mnemonic : String)
  /-- A phase code from 11 to 15 (R102). -/
  | reservedPhase (code : BitVec 4)
deriving DecidableEq, Repr

/-- `i`, if the fields that it does not use are zero (R93). -/
def whenZero (unusedZero : Bool) (mnemonic : String) (i : Instr) : Except Reject Instr :=
  if unusedZero then .ok i else .error (.unusedFieldNotZero mnemonic)

/-- The command a word stands for, or why it is illegal (R93, R94, R95, R96). -/
def decodeC96 (w : Cmd) : Except Reject Instr :=
  if cmdOp w = 0x01 then
    whenZero (noHighColor w && noOrigin w && noSize w) "CONFIGURE" (.configure (cmdB w).toNat)
  else if cmdOp w = 0x10 then
    whenZero (noSize w) "SET" (.set (cmdX w).toInt (cmdY w).toInt (cmdColor w))
  else if cmdOp w = 0x11 then
    .ok (.fill (cmdX w).toInt (cmdY w).toInt (cmdW w).toNat (cmdH w).toNat (cmdColor w))
  else if cmdOp w = 0x12 then whenZero (noColor w && noOrigin w && noSize w) "CLEAR" .clear
  else if cmdOp w = 0x13 then whenZero (noColor w && noOrigin w && noSize w) "GETBUF" .getbuf
  else if cmdOp w = 0x20 then whenZero (noColor w && noOrigin w && noSize w) "PUBLISH" .publish
  else if cmdOp w = 0x21 then whenZero (noColor w && noOrigin w && noSize w) "ACQUIRE" .acquire
  else .error (.reservedOpcode (cmdOp w))

/-- The phase of a 4-bit phase code (R101). -/
def phaseOfCode (code : BitVec 4) : Option Phase :=
  match code.toNat with
  | 0 => some .waitf
  | 1 => some .shdata
  | 2 => some .shclkh
  | 3 => some .shclkl
  | 4 => some .blank
  | 5 => some .latl
  | 6 => some .lath
  | 7 => some .addr
  | 8 => some .unblank
  | 9 => some .endblank
  | 10 => some .poll
  | _ => none

/-- The micro-operation that a phase selects (R100). -/
def Phase.instr : Phase → Instr
  | .waitf => .waitf
  | .shdata => .shdata
  | .shclkh => .shclkh
  | .shclkl => .shclkl
  | .blank => .blank
  | .latl => .latl
  | .lath => .lath
  | .addr => .addr
  | .unblank => .unblank
  | .endblank => .endblank
  | .poll => .poll

/-- The micro-operation of a 4-bit phase code (R100, R101). -/
def decodeSeq4 (code : BitVec 4) : Except Reject Instr :=
  match phaseOfCode code with
  | some p => .ok p.instr
  | none => .error (.reservedPhase code)

/-- The two instruction formats: a command word, and a phase code. -/
inductive Code where
  | c96 (w : Cmd)
  | seq4 (code : BitVec 4)
deriving DecidableEq, Repr

/-- The instruction a code stands for. -/
def decode : Code → Except Reject Instr
  | .c96 w => decodeC96 w
  | .seq4 c => decodeSeq4 c

/-! ## The encoder -/

/-- The 4-bit code of a phase (R101). -/
def Phase.code : Phase → BitVec 4
  | .waitf => 0
  | .shdata => 1
  | .shclkh => 2
  | .shclkl => 3
  | .blank => 4
  | .latl => 5
  | .lath => 6
  | .addr => 7
  | .unblank => 8
  | .endblank => 9
  | .poll => 10

/-- A command word put together from its fields, most significant first (R92). -/
def packCmd (h w y x : BitVec 16) (op : BitVec 8) (r g b : Byte) : Cmd :=
  h.setWidth 96 <<< 80 ||| w.setWidth 96 <<< 64 ||| y.setWidth 96 <<< 48 ||| x.setWidth 96 <<< 32 |||
    op.setWidth 96 <<< 24 ||| r.setWidth 96 <<< 16 ||| g.setWidth 96 <<< 8 ||| b.setWidth 96

/-- The code of an instruction. An operand that does not fit its field is cut to it: `WellFormed` excludes that. -/
def encode : Instr → Code
  | .configure d => .c96 (packCmd 0 0 0 0 0x01 0 0 (BitVec.ofNat 8 d))
  | .set x y c => .c96 (packCmd 0 0 (BitVec.ofInt 16 y) (BitVec.ofInt 16 x) 0x10 c.r c.g c.b)
  | .fill x y w h c =>
    .c96 (packCmd (BitVec.ofNat 16 h) (BitVec.ofNat 16 w) (BitVec.ofInt 16 y) (BitVec.ofInt 16 x) 0x11 c.r c.g c.b)
  | .clear => .c96 (packCmd 0 0 0 0 0x12 0 0 0)
  | .getbuf => .c96 (packCmd 0 0 0 0 0x13 0 0 0)
  | .publish => .c96 (packCmd 0 0 0 0 0x20 0 0 0)
  | .acquire => .c96 (packCmd 0 0 0 0 0x21 0 0 0)
  | .waitf => .seq4 Phase.waitf.code
  | .shdata => .seq4 Phase.shdata.code
  | .shclkh => .seq4 Phase.shclkh.code
  | .shclkl => .seq4 Phase.shclkl.code
  | .blank => .seq4 Phase.blank.code
  | .latl => .seq4 Phase.latl.code
  | .lath => .seq4 Phase.lath.code
  | .addr => .seq4 Phase.addr.code
  | .unblank => .seq4 Phase.unblank.code
  | .endblank => .seq4 Phase.endblank.code
  | .poll => .seq4 Phase.poll.code

/-! ## The match and mask table (R95) -/

/-- One command row of spec/opcode_table.json: a word `c` selects the row iff `c AND mask` is `pattern` (R95). -/
structure Row where
  mnemonic : String
  pattern : Cmd
  mask : Cmd
deriving DecidableEq, Repr

/-- The seven command rows, in the table's order. -/
def commandRows : List Row :=
  [⟨"CONFIGURE", 0x000000000000000001000000, 0xFFFFFFFFFFFFFFFFFFFFFF00⟩,
   ⟨"SET", 0x000000000000000010000000, 0xFFFFFFFF00000000FF000000⟩,
   ⟨"FILL", 0x000000000000000011000000, 0x0000000000000000FF000000⟩,
   ⟨"CLEAR", 0x000000000000000012000000, 0xFFFFFFFFFFFFFFFFFFFFFFFF⟩,
   ⟨"GETBUF", 0x000000000000000013000000, 0xFFFFFFFFFFFFFFFFFFFFFFFF⟩,
   ⟨"PUBLISH", 0x000000000000000020000000, 0xFFFFFFFFFFFFFFFFFFFFFFFF⟩,
   ⟨"ACQUIRE", 0x000000000000000021000000, 0xFFFFFFFFFFFFFFFFFFFFFFFF⟩]

/-- The word selects the row (R95). -/
def Row.selects (row : Row) (w : Cmd) : Bool := (w &&& row.mask) == row.pattern

/-- The mnemonic of an instruction, as spec/opcode_table.json spells it. -/
def Instr.mnemonic : Instr → String
  | .configure _ => "CONFIGURE"
  | .set _ _ _ => "SET"
  | .fill _ _ _ _ _ => "FILL"
  | .clear => "CLEAR"
  | .getbuf => "GETBUF"
  | .publish => "PUBLISH"
  | .acquire => "ACQUIRE"
  | .waitf => "WAITF"
  | .shdata => "SHDATA"
  | .shclkh => "SHCLKH"
  | .shclkl => "SHCLKL"
  | .blank => "BLANK"
  | .latl => "LATL"
  | .lath => "LATH"
  | .addr => "ADDR"
  | .unblank => "UNBLANK"
  | .endblank => "ENDBLANK"
  | .poll => "POLL"

/-! ## The table's numbering of bits -/

/-- The instruction read from the bits `w` of a row of spec/opcode_table.json that has `nbits` bits: a phase code
in the low four bits of one byte, or a command word whose bit 0 is cmd[0]. A set bit outside the code refuses. -/
def decodeTableWord (nbits w : Nat) : Option Instr :=
  if nbits ≤ 8 then
    if w < 16 then (decodeSeq4 (BitVec.ofNat 4 w)).toOption else none
  else if w < 2 ^ 96 then (decodeC96 (BitVec.ofNat 96 w)).toOption else none

end Sys2Proof
end

