-- ==== Sys2Proof/Machine/Fetch.lean ====
section
/-! DEFINITION. Who moves next and what it executes: the turn, the command being issued, the selected
micro-operation, and how one instruction is placed where the next step takes it. -/

namespace Sys2Proof.Machine

/-- Who moves next: as listed, or drawn under no law (R70). -/
def nextTurn (s : State) : Turn :=
  match s.turns with
  | t :: _ => t
  | [] => Config.schedule s.draws

/-- The turn has been taken: it is no longer listed, or one more value has been drawn. -/
def dropTurn (s : State) : State :=
  match s.turns with
  | _ :: rest => { s with turns := rest }
  | [] => { s with draws := s.draws + 1 }

/-- What the agent whose turn it is executes. -/
inductive Fetched where
  /-- It has no step. -/
  | nothing
  /-- A command word that is no command (R96). -/
  | illegal (why : Reject)
  /-- An instruction. -/
  | instr (i : Instr)
deriving DecidableEq, Repr

/-- The Compositor's next command: the word being issued, decoded (R91, R96). -/
def fetchCommand (port : List Cmd) : Fetched :=
  match port with
  | [] => .nothing
  | w :: _ =>
    match decodeC96 w with
    | .ok i => .instr i
    | .error why => .illegal why

/-- The Refresher's next micro-operation: the one SEQ.phase selects, and none unless MODE = RUN (R100, R161). -/
def fetchMicroOp (s : State) : Fetched :=
  if s.mode = .run then .instr s.seq.phase.instr else .nothing

/-- What the agent with turn `t` executes. -/
def fetch (t : Turn) (s : State) : Fetched :=
  match t with
  | .nobody => .nothing
  | .compositor => fetchCommand s.port
  | .refresher => fetchMicroOp s

/-- The word `w` is the next command, and the Compositor moves next. -/
def placeCommand (w : Cmd) (s : State) : State :=
  { s with port := w :: s.port, turns := .compositor :: s.turns }

/-- The phase is the next one of a configured engine, and the Refresher moves next. -/
def placePhase (p : Phase) (s : State) : State :=
  { s with mode := .run, seq := s.seq.inPhase p, turns := .refresher :: s.turns }

end Sys2Proof.Machine
end

