-- ==== Sys2Proof/Machine/Step.lean ====
section
/-! DEFINITION. One step: the agent whose turn it is executes one command or one micro-operation, or has no step. -/

namespace Sys2Proof.Machine

/-- One step of the interleaving of the two agents (R63, R70). Taking the turn is the environment's move; the
agent's own step is `exec` of the instruction it fetches. -/
def step (s : State) : Host.Outcome State Fault Refusal :=
  match fetch (nextTurn s) (dropTurn s) with
  | .nothing => .next (dropTurn s)
  | .illegal _ => .next (refuseIllegal (dropTurn s))
  | .instr i => exec i (dropTurn s)

/-- The instruction of a table row placed where the next step takes it: a command word at the head of the port with
the Compositor's turn next, or a phase code in SEQ with MODE = RUN and the Refresher's turn next (assumption log 13).
A code that is no phase is not placed. -/
def State.withFetchWord (s : State) (nbits w : Nat) : State :=
  if nbits ≤ 8 then
    match phaseOfCode (BitVec.ofNat 4 w) with
    | some p => placePhase p s
    | none => s
  else placeCommand (BitVec.ofNat 96 w) s

end Sys2Proof.Machine
end

