-- ==== Sys2Proof/Machine/PanelSink.lean ====
section
/-! DEFINITION. The reference panel sink of 42_panel_driver section 6: non-normative, outside the engine and outside
State; it reads the trace and nothing of the engine reads it (R43, R177). Assumption log 14. -/

namespace Sys2Proof.Machine

/-- The stream of PINS words that a DMA realisation of the driver presents: one word for each event, in order (R104).
Assumption log 22. -/
def pinStream (events : List LineEvent) : List Pins := events.map (·.pins)

/-- The sink's own state: the row shift register, newest column first, and the row output drivers. -/
structure PanelSink where
  shift : List FieldVal
  latched : List FieldVal
deriving DecidableEq, Repr

/-- One event: a rising CLK shifts the colour lines in, a LAT going high copies the shift register. -/
def sinkStep (k : PanelSink) (e : LineEvent) : PanelSink :=
  match e.field with
  | .clk => if getField .clk e.pins = 1 then { k with shift := getField .rgb e.pins :: k.shift.dropLast } else k
  | .lat => if getField .lat e.pins = 1 then { k with latched := k.shift } else k
  | .rgb => k
  | .addr => k
  | .oe => k

/-- The sink after a list of events, oldest first. -/
def sinkRun (k : PanelSink) (events : List LineEvent) : PanelSink := events.foldl sinkStep k

/-- The two rows that are lit at line levels `p`, if any. -/
def litRows (p : Pins) : Option (Nat × Nat) :=
  if getField .oe p = 0 then
    some ((getField .addr p).toNat, (getField .addr p).toNat + Config.addressableRows)
  else none

/-- What the panel shows at a lit row pair and position: the six lanes latched there, none if nothing is lit. -/
def shownAt (k : PanelSink) (p : Pins) (position : Nat) : Option FieldVal :=
  if getField .oe p = 0 then k.latched[position]? else none

end Sys2Proof.Machine
end

