-- ==== Sys2Proof/Safety.lean ====
section
/-! DEFINITION. What a good state of the engine is: the ownership shapes, the configuration registers, the legal
positions of the sequencer, the line levels and the trace discipline. -/

namespace Sys2Proof.Safety

open Sys2Proof.Machine

/-- The ownership invariant: one of the three shapes of XCHG, with the two buffers apart (R44). -/
def ownershipOk (s : State) : Bool :=
  match s.cOwn, s.toR, s.toC, s.rOwn with
  | some a, none, none, some b => a != b
  | none, some a, none, some b => a != b
  | none, none, some a, some b => a != b
  | _, _, _, _ => false

/-- The three brightness registers are those of the bit depth `d` (R25, R26, R27). -/
def brightnessOf (d : Nat) (s : State) : Bool :=
  s.bitDepth.toNat == d && s.brightnessStep.toNat == stepOfDepth d && s.brightnessCount.toNat == countOfDepth d

/-- The brightness registers are 0 before and without a configuration, and belong to a depth from 1 to 8 after it
(R25, R26, R27). -/
def configOk (s : State) : Bool :=
  match s.mode with
  | .unconf | .cfgErr => s.bitDepth == 0 && s.brightnessStep == 0 && s.brightnessCount == 0
  | .run | .halted => decide (1 ≤ s.bitDepth.toNat ∧ s.bitDepth.toNat ≤ 8) && brightnessOf s.bitDepth.toNat s

/-- Column COLS - 1, where `col` rests after the shift loop (R166). -/
def lastCol (s : State) : Bool := s.seq.col.toNat == Config.cols - 1

/-- Row AR - 1. -/
def lastRow (s : State) : Bool := s.seq.row.toNat == Config.addressableRows - 1

/-- 1 ≤ level ≤ BRIGHTNESS_COUNT. -/
def levelInRange (s : State) : Bool := decide (1 ≤ s.seq.level.toNat ∧ s.seq.level.toNat ≤ s.brightnessCount.toNat)

/-- The legal positions of the sequencer (R22). Rows and columns are below AR and COLS by their widths. -/
def seqOk (s : State) : Bool :=
  match s.seq.phase with
  | .waitf => s.seq.level == 0 && s.seq.row == 0 && s.seq.col == 0
  | .poll | .endblank => s.seq.level == s.brightnessCount && lastRow s && lastCol s
  | .shdata | .shclkh | .shclkl => levelInRange s
  | .blank | .latl | .lath | .addr | .unblank => levelInRange s && lastCol s

/-- Before the first frame is taken up nothing has been driven: the lines have their reset levels and there is no
event; only a configured engine leaves WAITF (R206, R238). -/
def beforeScanOk (s : State) : Bool :=
  match s.seq.phase, s.mode with
  | .waitf, .halted => false
  | .waitf, _ => s.pins == 0x3000 && s.trace.isEmpty
  | _, .unconf => false
  | _, .cfgErr => false
  | _, _ => true

/-- The invariant of the machine's data. -/
abbrev Inv (s : State) : Prop :=
  ownershipOk s = true ∧ configOk s = true ∧ seqOk s = true ∧ beforeScanOk s = true ∧ Memory.wf s.fb = true

/-- The row whose data was latched last while a row is being shifted: the one before, or AR - 1 before row 0 of a
level after the first. -/
def litRow (q : Seq) : BitVec 5 := if q.row = 0 then 31 else q.row - 1

/-- The first row visit of a full cycle, during which the panel stays blanked (R172). -/
def firstVisit (q : Seq) : Bool := q.level == 1 && q.row == 0

/-- The level of CLK at a position: high only between SHCLKH and SHCLKL (R178 a). -/
def clkAt (p : Phase) : FieldVal := if p = .shclkl then 1 else 0

/-- The level of LAT at a position: low only between LATL and LATH (R168). -/
def latAt (p : Phase) : FieldVal := if p = .lath then 0 else 1

/-- The level of OE at a position: low from UNBLANK to the next BLANK or ENDBLANK (R171, R172). -/
def oeAt (q : Seq) : FieldVal :=
  match q.phase with
  | .shdata | .shclkh | .shclkl | .blank => if firstVisit q then 1 else 0
  | .endblank => 0
  | .waitf | .latl | .lath | .addr | .unblank | .poll => 1

/-- What ADDR holds where it matters: the selected row before UNBLANK, and the lit row while OE is low (R178 f). -/
def addrOk (s : State) : Bool :=
  match s.seq.phase with
  | .unblank | .endblank => getField .addr s.pins == s.seq.row.setWidth 6
  | .shdata | .shclkh | .shclkl | .blank =>
    firstVisit s.seq || getField .addr s.pins == (litRow s.seq).setWidth 6
  | .waitf | .latl | .lath | .addr | .poll => true

/-- The levels of CLK, LAT, OE and ADDR belong to the position of the sequencer. -/
def levelsOk (s : State) : Bool :=
  getField .clk s.pins == clkAt s.seq.phase && getField .lat s.pins == latAt s.seq.phase &&
    getField .oe s.pins == oeAt s.seq && addrOk s

/-- One event after line levels `before`: only the written field may differ; RGB is written while CLK is low, LAT
and ADDR while OE is high, and every CLK and every LAT write changes its line (R178 a, b, c). -/
def eventOk (before : Pins) (e : LineEvent) : Bool :=
  (e.pins == setField e.field (getField e.field e.pins) before) &&
    match e.field with
    | .rgb => getField .clk before == 0
    | .clk => getField .clk e.pins != getField .clk before
    | .lat => getField .oe before == 1 && getField .lat e.pins != getField .lat before
    | .addr => getField .oe before == 1
    | .oe => true

/-- Every event of the list is in order, the first one after the levels `before`. -/
def traceOkFrom (before : Pins) : List LineEvent → Bool
  | [] => true
  | e :: rest => eventOk before e && traceOkFrom e.pins rest

/-- The line levels after a list of events that started at `before`. -/
def levelsAfter (before : Pins) : List LineEvent → Pins
  | [] => before
  | e :: rest => levelsAfter e.pins rest

/-- The invariant of the output lines: the trace obeys the line discipline from the reset levels on, and while no
write has failed PINS is what the trace says and the levels belong to the position. -/
abbrev LineInv (s : State) : Prop :=
  traceOkFrom 0x3000 s.trace = true ∧
    (s.mode ≠ .halted → s.pins = levelsAfter 0x3000 s.trace ∧ levelsOk s = true)

/-- A run of `k` steps of the machine. -/
abbrev runSteps (k : Nat) (s : State) : Result := Host.Core.run Sys2Proof.core k s

/-- A good run has neither status output set (R240). -/
def noFailure (s : State) : Bool := !cfgErrFlag s && !faultFlag s

end Sys2Proof.Safety
end

