-- ==== Sys2Proof/Certificates/Slice0/Obligations.lean ====
section
/-! DEFINITION. The statements for the provers, and the vocabulary that they are written in. -/

namespace Sys2Proof.Claims

open Sys2Proof.Machine

/-! ## Vocabulary -/

/-- A command completes with the response word `r` and changes nothing else. -/
def completed (r : BitVec 16) (s : State) : State := { s with resp := r, port := s.port.tail }

/-- How a command is encoded: opcode `op` in cmd[31:24]; a word whose unused fields are zero is the instruction,
every other word with that opcode is illegal. -/
def CommandForm (op : BitVec 8) (unusedZero : Cmd → Prop) (i : Cmd → Instr) : Prop :=
  ∀ w : Cmd, w.extractLsb' 24 8 = op →
    (unusedZero w → decode (.c96 w) = .ok (i w)) ∧ (¬unusedZero w → ∃ why, decode (.c96 w) = .error why)

/-- cmd[23:0], `x`, `y`, `w` and `h` are zero. -/
def allZero (w : Cmd) : Prop := w.extractLsb' 0 24 = 0 ∧ w.extractLsb' 32 64 = 0

/-- The colour operand of a word: R, G, B from the most significant byte on. -/
def colorOf (w : Cmd) : Color := ⟨w.extractLsb' 16 8, w.extractLsb' 8 8, w.extractLsb' 0 8⟩

/-- The pixel that a colour is stored as. -/
def gammaPixel (c : Color) : Pixel := ⟨Config.gamma.get c.r, Config.gamma.get c.g, Config.gamma.get c.b⟩

/-- The oracle has answered one line write. -/
def answered (s : State) : State :=
  { s with pinAnswers := s.pinAnswers.tail, draws := if s.pinAnswers.isEmpty then s.draws + 1 else s.draws }

/-- A micro-operation whose write of field `f` succeeded: PINS is `p`, the event is recorded, SEQ is `next`, and
nothing else changes. -/
def lineDone (f : Field) (p : Pins) (next : Seq) (s : State) : State :=
  { answered s with pins := p, trace := s.trace ++ [⟨f, p⟩], seq := next }

/-- A micro-operation whose line write failed: MODE is HALTED, PINS is `p`, and nothing else changes. -/
def lineHalted (p : Pins) (s : State) : State := { answered s with pins := p, mode := .halted }

/-- The phase code selects the instruction; enabled, it drives the lines to `newPins` and goes to `next` if the write
succeeds, and halts with only the masked lines changed if it fails. -/
def DrivesLine (i : Instr) (code : BitVec 4) (p : Phase) (f : Field) (mask : Pins) (newPins : State → Pins)
    (next : State → Seq) : Prop :=
  decode (.seq4 code) = .ok i ∧
    ∀ s : State, s.mode = .run → s.seq.phase = p →
      (pinAnswer s = .ok → exec i s = .next (lineDone f (newPins s) (next s) s)) ∧
      (∀ left, pinAnswer s = .failed left →
        ∃ q : Pins, q &&& ~~~mask = s.pins &&& ~~~mask ∧ exec i s = .next (lineHalted q s))

/-- The line that a phase writes (the table of R101). -/
def lineOf : Phase → Option Field
  | .waitf => none
  | .shdata => some .rgb
  | .shclkh => some .clk
  | .shclkl => some .clk
  | .blank => some .oe
  | .latl => some .lat
  | .lath => some .lat
  | .addr => some .addr
  | .unblank => some .oe
  | .endblank => some .oe
  | .poll => none

/-- The lowest line and the number of lines of a field (R29). -/
def linesOf : Field → Nat × Nat
  | .rgb => (0, 6)
  | .addr => (6, 5)
  | .clk => (11, 1)
  | .lat => (12, 1)
  | .oe => (13, 1)

/-- A pixel of the grid lies in the rectangle of FILL: it is (x + i, y + j) with i < w and j < h. -/
def InRectangle (x y : Int) (w h : Nat) (row col : Nat) : Prop :=
  ∃ i j : Nat, i < w ∧ j < h ∧ (col : Int) = x + i ∧ (row : Int) = y + j

/-- The writes of one row visit in order: for each column RGB, CLK high, CLK low; then OE high, LAT low, LAT high,
ADDR, OE low (R174). -/
def rowWrites (m : Memory) (b : BufId) (t : Byte) (row : BitVec 5) : List (Field × FieldVal) :=
  ((List.range 64).flatMap fun c => [(Field.rgb, lanes m b row.toNat c t), (Field.clk, 1), (Field.clk, 0)]) ++
    [(Field.oe, 1), (Field.lat, 0), (Field.lat, 1), (Field.addr, row.setWidth 6), (Field.oe, 0)]

/-- The writes of one full cycle in order: the levels from 1 to `count`, at each the rows from 0 to 31, and at the end
OE high (R160, R174). -/
def cycleWrites (m : Memory) (b : BufId) (step count : Nat) : List (Field × FieldVal) :=
  ((List.range count).flatMap fun l => (List.range 32).flatMap fun r =>
    rowWrites m b (BitVec.ofNat 8 (min ((l + 1) * step) 255)) (BitVec.ofNat 5 r)) ++ [(Field.oe, 1)]

/-- The events of a list of writes that starts at line levels `p`. -/
def eventsOf (p : Pins) : List (Field × FieldVal) → List LineEvent
  | [] => []
  | (f, v) :: rest => ⟨f, setField f v p⟩ :: eventsOf (setField f v p) rest

/-- The next `n` turns are the Refresher's and the oracle answers success to the next `n` line writes; `turns` and
`answers` follow. -/
def ScansFor (n : Nat) (turns : List Turn) (answers : List PinAnswer) (s : State) : Prop :=
  s.turns = List.replicate n .refresher ++ turns ∧ s.pinAnswers = List.replicate n .ok ++ answers

/-- Only the lines, the trace and the position have moved since `s`, and `turns` and `answers` are what is listed. -/
def ScannedTo (turns : List Turn) (answers : List PinAnswer) (s t : State) : Prop :=
  t = { s with pins := t.pins, trace := t.trace, seq := t.seq, turns := turns, pinAnswers := answers }

end Sys2Proof.Claims

open Sys2Proof Sys2Proof.Machine Sys2Proof.Safety Sys2Proof.Claims

/-! ## Encodings -/

/-- Decoding the encoding of a well-formed instruction gives the instruction, for every operand value. -/
def Obligations.DecodeOfEncodeIsTheInstruction : Prop :=
  ∀ i : Instr, WellFormed i → decode (encode i) = .ok i

/-- A code that decodes is the encoding of the instruction it decodes to, which is well formed: no two codes stand for
one instruction. -/
def Obligations.DecodedCodeEncodesBack : Prop :=
  ∀ (c : Code) (i : Instr), decode c = .ok i → WellFormed i ∧ encode i = c

/-- R95: a word is a command iff it selects a row of the match and mask table, and it selects one row only. -/
def Obligations.MatchAndMaskSelectTheCommand : Prop :=
  ∀ w : Cmd,
    (∀ i, decodeC96 w = .ok i → (commandRows.filter fun r => w &&& r.mask = r.pattern).map (·.mnemonic) = [i.mnemonic]) ∧
      (∀ why, decodeC96 w = .error why → ∀ r ∈ commandRows, w &&& r.mask ≠ r.pattern)

/-- The words of 30_encoding section 10 and of 95_test_vectors part 2 decode as printed there. -/
def Obligations.PrintedWordsDecode : Prop :=
  decode (.c96 0x000000000000000001000004) = .ok (.configure 4) ∧
  decode (.c96 0x000000000005FFFF1000FF00) = .ok (.set (-1) 5 ⟨0x00, 0xFF, 0x00⟩) ∧
  decode (.c96 0x00040008FFFE003C11808080) = .ok (.fill 60 (-2) 8 4 ⟨0x80, 0x80, 0x80⟩) ∧
  decode (.c96 0x000000000000000012000000) = .ok .clear ∧
  decode (.c96 0x000000000000000013000000) = .ok .getbuf ∧
  decode (.c96 0x000000000000000020000000) = .ok .publish ∧
  decode (.c96 0x000000000000000021000000) = .ok .acquire ∧
  decode (.c96 0x000000010000000010FF0000) = .error (.unusedFieldNotZero "SET") ∧
  decode (.c96 0x000000000000000002000000) = .error (.reservedOpcode 0x02) ∧
  decode (.seq4 0) = .ok .waitf ∧ decode (.seq4 9) = .ok .endblank ∧ decode (.seq4 10) = .ok .poll ∧
  decode (.seq4 11) = .error (.reservedPhase 11)

/-! ## One step -/

/-- On a turn of the Compositor the step executes the command at the head of the port, and nothing where the port is
empty. -/
def Obligations.StepExecutesTheIssuedCommand : Prop :=
  ∀ s : State, nextTurn s = .compositor →
    (∀ (w : Cmd) (rest : List Cmd) (i : Instr), s.port = w :: rest → decode (.c96 w) = .ok i →
      step s = exec i (dropTurn s)) ∧
    (s.port = [] → step s = .next (dropTurn s))

/-- On a turn of the Refresher the step executes the micro-operation that SEQ.phase selects if MODE = RUN, and nothing
otherwise; on a turn of nobody nothing happens. -/
def Obligations.StepExecutesTheSelectedMicroOperation : Prop :=
  ∀ s : State,
    (nextTurn s = .refresher → s.mode = .run →
      ∀ i, decode (.seq4 s.seq.phase.code) = .ok i → step s = exec i (dropTurn s)) ∧
    (nextTurn s = .refresher → s.mode ≠ .run → step s = .next (dropTurn s)) ∧
    (nextTurn s = .nobody → step s = .next (dropTurn s))

/-- R236: a word that matches no row of the table completes with ILLEGAL_CMD and changes nothing else. -/
def Obligations.UnmatchedWordIsIllegal : Prop :=
  ∀ (s : State) (w : Cmd) (rest : List Cmd), nextTurn s = .compositor → s.port = w :: rest →
    (∀ r ∈ commandRows, w &&& r.mask ≠ r.pattern) →
    step s = .next { dropTurn s with resp := 0x0300, port := rest }

/-! ## Reset -/

/-- R45: both frame buffers are black after reset, the Compositor owns buffer 0 and the Refresher buffer 1. -/
def Obligations.ResetClearsTheBuffersAndSharesThemOut : Prop :=
  (∀ (b : BufId) (y x : Nat), y < 64 → x < 64 → fbRead State.reset.fb b y x = ⟨0, 0, 0⟩) ∧
    State.reset.cOwn = some 0 ∧ State.reset.rOwn = some 1

/-- The other registers after reset, as R46 sets them: both slots empty, not configured, and the Refresher at WAITF. -/
def Obligations.ResetRegisters : Prop :=
  State.reset.toR = none ∧ State.reset.toC = none ∧ State.reset.mode = .unconf ∧ State.reset.bitDepth = 0 ∧
    State.reset.brightnessStep = 0 ∧ State.reset.brightnessCount = 0 ∧ State.reset.seq = ⟨.waitf, 0, 0, 0⟩ ∧
    State.reset.resp = 0 ∧ cfgErrFlag State.reset = false ∧ faultFlag State.reset = false

/-- The output lines after reset, a level that the spec itself chose (D18): OE and LAT high, all other lines low, and
no event yet. -/
def Obligations.ResetBlanksThePanel : Prop :=
  State.reset.pins = 0x3000 ∧ getField .oe State.reset.pins = 1 ∧ getField .lat State.reset.pins = 1 ∧
  getField .clk State.reset.pins = 0 ∧ getField .addr State.reset.pins = 0 ∧ getField .rgb State.reset.pins = 0 ∧
  State.reset.trace = []

/-! ## The frame buffer commands -/

/-- R121: SET stores the gamma-corrected colour in one pixel of the Compositor's buffer, drops a write outside the grid,
and is refused without a buffer. -/
def Obligations.SetWritesOnePixel : Prop :=
  CommandForm 0x10 (fun w => w.extractLsb' 64 32 = 0)
    (fun w => .set (w.extractLsb' 32 16).toInt (w.extractLsb' 48 16).toInt (colorOf w)) ∧
  ∀ (s : State) (x y : Int) (c : Color), Memory.wf s.fb = true →
    (∀ b, s.cOwn = some b →
      ∃ m : Memory, exec (.set x y c) s = .next { completed 0x0000 s with fb := m } ∧
        (0 ≤ x ∧ x < 64 ∧ 0 ≤ y ∧ y < 64 →
          fbRead m b y.toNat x.toNat = gammaPixel c ∧
          ∀ a, a < pixelAddr b y.toNat x.toNat ∨ pixelAddr b y.toNat x.toNat + 3 ≤ a → Memory.read m a = Memory.read s.fb a) ∧
        (¬(0 ≤ x ∧ x < 64 ∧ 0 ≤ y ∧ y < 64) → m = s.fb)) ∧
    (s.cOwn = none → exec (.set x y c) s = .next (completed 0x0200 s))

/-- R122: FILL stores the gamma-corrected colour in every pixel of the rectangle that lies in the grid, and in no other
byte, and is refused without a buffer. -/
def Obligations.FillWritesTheRectangle : Prop :=
  CommandForm 0x11 (fun _ => True)
    (fun w => .fill (w.extractLsb' 32 16).toInt (w.extractLsb' 48 16).toInt (w.extractLsb' 64 16).toNat
      (w.extractLsb' 80 16).toNat (colorOf w)) ∧
  ∀ (s : State) (x y : Int) (w h : Nat) (c : Color), Memory.wf s.fb = true →
    (∀ b, s.cOwn = some b →
      ∃ m : Memory, exec (.fill x y w h c) s = .next { completed 0x0000 s with fb := m } ∧
        (∀ row col, row < 64 → col < 64 → InRectangle x y w h row col → fbRead m b row col = gammaPixel c) ∧
        (∀ a, (∀ row col, row < 64 → col < 64 → InRectangle x y w h row col →
            a < pixelAddr b row col ∨ pixelAddr b row col + 3 ≤ a) → Memory.read m a = Memory.read s.fb a)) ∧
    (s.cOwn = none → exec (.fill x y w h c) s = .next (completed 0x0200 s))

/-- R123: CLEAR makes every pixel of the Compositor's buffer zero and changes no byte outside it, and is refused
without a buffer. -/
def Obligations.ClearZeroesTheOwnedBuffer : Prop :=
  CommandForm 0x12 allZero (fun _ => .clear) ∧
  ∀ s : State,
    (∀ b, s.cOwn = some b →
      ∃ m : Memory, exec .clear s = .next { completed 0x0000 s with fb := m } ∧
        (∀ row col, row < 64 → col < 64 → fbRead m b row col = ⟨0, 0, 0⟩) ∧
        (∀ a, a < b.toNat * 12288 ∨ (b.toNat + 1) * 12288 ≤ a → Memory.read m a = Memory.read s.fb a)) ∧
    (s.cOwn = none → exec .clear s = .next (completed 0x0200 s))

/-- R124: GETBUF answers the number of the Compositor's buffer and changes nothing, and is refused without one. -/
def Obligations.GetbufNamesTheOwnedBuffer : Prop :=
  CommandForm 0x13 allZero (fun _ => .getbuf) ∧
  ∀ s : State,
    (∀ b, s.cOwn = some b → exec .getbuf s = .next (completed (b.setWidth 16) s)) ∧
    (s.cOwn = none → exec .getbuf s = .next (completed 0x0200 s))

/-- CLEAR has exactly the result of FILL 0, 0, 64, 64, #000000, in every state whose memory is in canonical form. -/
def Obligations.ClearIsTheBlackFill : Prop :=
  ∀ s : State, Memory.wf s.fb = true → exec .clear s = exec (.fill 0 0 64 64 ⟨0, 0, 0⟩) s

/-- FILL x, y, 1, 1, #c has exactly the effect of SET x, y, #c. -/
def Obligations.UnitFillIsSet : Prop :=
  ∀ (s : State) (x y : Int) (c : Color), exec (.fill x y 1 1 c) s = exec (.set x y c) s

/-- Drawing the same thing a second time changes no pixel: SET, FILL and CLEAR are idempotent. -/
def Obligations.DrawingIsIdempotent : Prop :=
  ∀ (s : State) (b : BufId) (i : Instr), Memory.wf s.fb = true → s.cOwn = some b →
    ((∃ x y c, i = .set x y c) ∨ (∃ x y w h c, i = .fill x y w h c) ∨ i = .clear) →
    ∃ t u, exec i s = .next t ∧ exec i t = .next u ∧ u.fb = t.fb

/-- A raw channel value is ON at every threshold at which a darker one is ON, from the properties of GAMMA alone. -/
def Obligations.BrighterValueIsOnWhereDarkerIs : Prop :=
  ∀ u v t : Byte, u.toNat ≤ v.toNat → isOn (Config.gamma.get u) t = true → isOn (Config.gamma.get v) t = true

/-! ## The brightness encoder -/

/-- R140: CONFIGURE accepts 1 to 8 once, fails into CFG_ERR outside that range, and is refused in every mode but
UNCONF, whatever the operand. -/
def Obligations.ConfigureActsOnceAndChecksTheDepth : Prop :=
  CommandForm 0x01 (fun w => w.extractLsb' 8 16 = 0 ∧ w.extractLsb' 32 64 = 0)
    (fun w => .configure (w.extractLsb' 0 8).toNat) ∧
  ∀ (s : State) (d : Nat),
    (s.mode ≠ .unconf → exec (.configure d) s = .next (completed 0x0400 s)) ∧
    (s.mode = .unconf → 1 ≤ d → d ≤ 8 →
      ∃ t, exec (.configure d) s = .next t ∧ t.bitDepth.toNat = d ∧ t.brightnessStep.toNat = 2 ^ (8 - d) ∧
        t.brightnessCount.toNat = 2 ^ d - 1 ∧
        t = { completed 0x0000 s with mode := .run, bitDepth := t.bitDepth, brightnessStep := t.brightnessStep, brightnessCount := t.brightnessCount }) ∧
    (s.mode = .unconf → d = 0 ∨ 9 ≤ d →
      exec (.configure d) s = .next { completed 0x0100 s with mode := .cfgErr })

/-- R141, R142: the steps 128 to 1 and the counts 1 to 255 of the bit depths 1 to 8. -/
def Obligations.StepAndCountOfEveryDepth : Prop :=
  ∀ s : State, s.mode = .unconf →
    ∀ q ∈ [(1, 128, 1), (2, 64, 3), (3, 32, 7), (4, 16, 15), (5, 8, 31), (6, 4, 63), (7, 2, 127), (8, 1, 255)],
      ∃ t, exec (.configure q.1) s = .next t ∧ t.bitDepth.toNat = q.1 ∧ t.brightnessStep.toNat = q.2.1 ∧
        t.brightnessCount.toNat = q.2.2

/-- In a good state at a level of the scan the threshold is exactly level × step, at most 255, and the next level's is
one step higher: the clamp never takes effect and the thresholds rise strictly. -/
def Obligations.ThresholdsRiseAndNeverClamp : Prop :=
  ∀ s : State, configOk s = true → s.mode = .run → levelInRange s = true →
    (thresh s).toNat = s.seq.level.toNat * s.brightnessStep.toNat ∧
    (s.seq.level.toNat < s.brightnessCount.toNat →
      (thresh { s with seq := { s.seq with level := s.seq.level + 1 } }).toNat =
        (thresh s).toNat + s.brightnessStep.toNat) ∧
    1 ≤ s.brightnessStep.toNat

/-- A stored intensity is ON at exactly the levels 1 to its top `d` bits, so at that many levels of a cycle. -/
def Obligations.OnAtAsManyLevelsAsTheTopBits : Prop :=
  ∀ (d : Nat) (v : Byte), 1 ≤ d → d ≤ 8 →
    (∀ l, 1 ≤ l → l ≤ 2 ^ d - 1 →
      (isOn v (BitVec.ofNat 8 (thresholdNat l (2 ^ (8 - d)))) = true ↔ l ≤ v.toNat >>> (8 - d))) ∧
    ((List.range' 1 (2 ^ d - 1)).filter fun l => isOn v (BitVec.ofNat 8 (thresholdNat l (2 ^ (8 - d))))).length =
      v.toNat >>> (8 - d)

/-- A channel written 255 is ON and a channel written 0 is OFF at every level of every bit depth. -/
def Obligations.FullScaleIsOnAndBlackIsOff : Prop :=
  ∀ d l : Nat, 1 ≤ d → d ≤ 8 → 1 ≤ l → l ≤ 2 ^ d - 1 →
    isOn (Config.gamma.get 255) (BitVec.ofNat 8 (thresholdNat l (2 ^ (8 - d)))) = true ∧
    isOn (Config.gamma.get 0) (BitVec.ofNat 8 (thresholdNat l (2 ^ (8 - d)))) = false

/-- At bit depth 4 a channel written 128 is ON at the levels 1 and 2 and OFF from level 3 on, from GammaHalf alone. -/
def Obligations.HalfScaleIsOffFromLevelThree : Prop :=
  ∀ l : Nat, 1 ≤ l → l ≤ 15 →
    isOn (Config.gamma.get 128) (BitVec.ofNat 8 (thresholdNat l 16)) = decide (l ≤ 2)

/-! ## The micro-operations that write a line -/

/-- R164: SHDATA compares the six stored channels of its column with the threshold and drives the six colour lines. -/
def Obligations.ShdataDrivesTheSixLanes : Prop :=
  decode (.seq4 1) = .ok .shdata ∧
  ∀ (s : State) (b : BufId), s.mode = .run → s.seq.phase = .shdata → s.rOwn = some b →
    (pinAnswer s = .ok →
      ∃ v : FieldVal,
        (let t := min (s.seq.level.toNat * s.brightnessStep.toNat) 255
         let top := fbRead s.fb b s.seq.row.toNat s.seq.col.toNat
         let bottom := fbRead s.fb b (s.seq.row.toNat + 32) s.seq.col.toNat
         v.getLsbD 0 = decide (t ≤ top.r.toNat) ∧ v.getLsbD 1 = decide (t ≤ top.g.toNat) ∧
         v.getLsbD 2 = decide (t ≤ top.b.toNat) ∧ v.getLsbD 3 = decide (t ≤ bottom.r.toNat) ∧
         v.getLsbD 4 = decide (t ≤ bottom.g.toNat) ∧ v.getLsbD 5 = decide (t ≤ bottom.b.toNat)) ∧
        exec .shdata s =
          .next (lineDone .rgb ((s.pins &&& ~~~(0x003F : Pins)) ||| v.setWidth 14) { s.seq with phase := .shclkh } s)) ∧
    (∀ left, pinAnswer s = .failed left →
      ∃ q : Pins, q &&& ~~~(0x003F : Pins) = s.pins &&& ~~~(0x003F : Pins) ∧ exec .shdata s = .next (lineHalted q s))

/-- R165: SHCLKH drives CLK high. -/
def Obligations.ShclkhRaisesTheClock : Prop :=
  DrivesLine .shclkh 2 .shclkh .clk 0x0800 (fun s => s.pins ||| (0x0800 : Pins)) (fun s => { s.seq with phase := .shclkl })

/-- R166: SHCLKL drives CLK low and goes to the next column, or to BLANK after column 63. -/
def Obligations.ShclklLowersTheClockAndMovesOn : Prop :=
  DrivesLine .shclkl 3 .shclkl .clk 0x0800 (fun s => s.pins &&& ~~~(0x0800 : Pins))
    (fun s => if s.seq.col.toNat < 63 then ⟨.shdata, s.seq.level, s.seq.row, s.seq.col + 1⟩
      else ⟨.blank, s.seq.level, s.seq.row, s.seq.col⟩)

/-- R167: BLANK drives OE high. -/
def Obligations.BlankRaisesOutputEnable : Prop :=
  DrivesLine .blank 4 .blank .oe 0x2000 (fun s => s.pins ||| (0x2000 : Pins)) (fun s => { s.seq with phase := .latl })

/-- R168: LATL drives LAT low. -/
def Obligations.LatlLowersTheLatch : Prop :=
  DrivesLine .latl 5 .latl .lat 0x1000 (fun s => s.pins &&& ~~~(0x1000 : Pins)) (fun s => { s.seq with phase := .lath })

/-- R169: LATH drives LAT high. -/
def Obligations.LathRaisesTheLatch : Prop :=
  DrivesLine .lath 6 .lath .lat 0x1000 (fun s => s.pins ||| (0x1000 : Pins)) (fun s => { s.seq with phase := .addr })

/-- R170: ADDR drives the row number on the address lines, line i carrying bit i. -/
def Obligations.AddrSelectsTheRow : Prop :=
  DrivesLine .addr 7 .addr .addr 0x07C0 (fun s => (s.pins &&& ~~~(0x07C0 : Pins)) ||| (s.seq.row.setWidth 14 <<< 6))
    (fun s => { s.seq with phase := .unblank })

/-- R171: UNBLANK drives OE low and goes to the next row, the next level, or ENDBLANK. -/
def Obligations.UnblankLowersOutputEnableAndMovesOn : Prop :=
  DrivesLine .unblank 8 .unblank .oe 0x2000 (fun s => s.pins &&& ~~~(0x2000 : Pins))
    (fun s => if s.seq.row.toNat < 31 then ⟨.shdata, s.seq.level, s.seq.row + 1, 0⟩
      else if s.seq.level.toNat < s.brightnessCount.toNat then ⟨.shdata, s.seq.level + 1, 0, 0⟩
      else ⟨.endblank, s.seq.level, s.seq.row, s.seq.col⟩)

/-- R172: ENDBLANK drives OE high and goes to POLL. -/
def Obligations.EndblankRaisesOutputEnable : Prop :=
  DrivesLine .endblank 9 .endblank .oe 0x2000 (fun s => s.pins ||| (0x2000 : Pins)) (fun s => { s.seq with phase := .poll })

/-- R239: a failed line write of any of the nine micro-operations leaves its field with the drawn value and every other
line as it was, sets MODE to HALTED, and changes nothing else. -/
def Obligations.FailedLineWriteHalts : Prop :=
  ∀ (s : State) (f : Field) (left : FieldVal), s.mode = .run → lineOf s.seq.phase = some f → s.rOwn ≠ none →
    pinAnswer s = .failed left →
    ∃ q : Pins, exec s.seq.phase.instr s = .next (lineHalted q s) ∧
      (∀ k, k < 14 → q.getLsbD k =
        if (linesOf f).1 ≤ k ∧ k < (linesOf f).1 + (linesOf f).2 then left.getLsbD (k - (linesOf f).1)
        else s.pins.getLsbD k) ∧
      faultFlag (lineHalted q s) = true

/-- A micro-operation that is not enabled has no step: nothing changes (the model's form of it, assumption log 10). -/
def Obligations.DisabledMicroOperationChangesNothing : Prop :=
  ∀ (s : State) (p : Phase), ¬(s.mode = .run ∧ s.seq.phase = p) → exec p.instr s = .next s

/-- Where R_OWN is empty, which no reachable state has, the instructions that need the Refresher's buffer stop by name
(the model's choice, assumption log 11). -/
def Obligations.RefresherWithoutBufferStops : Prop :=
  ∀ s : State, s.mode = .run → s.rOwn = none →
    (s.seq.phase = .shdata → exec .shdata s = .fault .refresherOwnsNoBuffer) ∧
    (s.seq.phase = .waitf → s.toR ≠ none → exec .waitf s = .fault .refresherOwnsNoBuffer) ∧
    (s.seq.phase = .poll → s.toR ≠ none → exec .poll s = .fault .refresherOwnsNoBuffer)

/-! ## The buffer exchange -/

/-- R202: PUBLISH moves the Compositor's buffer to TO_R, whatever the slot held, and is refused without a buffer. -/
def Obligations.PublishHandsTheBufferOver : Prop :=
  CommandForm 0x20 allZero (fun _ => .publish) ∧
  ∀ s : State,
    (∀ b, s.cOwn = some b → exec .publish s = .next { completed 0x0000 s with toR := some b, cOwn := none }) ∧
    (s.cOwn = none → exec .publish s = .next (completed 0x0200 s))

/-- R203: ACQUIRE takes the buffer in TO_C, is held while TO_C is empty, and is refused while a buffer is owned. -/
def Obligations.AcquireTakesHoldsOrIsRefused : Prop :=
  CommandForm 0x21 allZero (fun _ => .acquire) ∧
  ∀ s : State,
    (∀ b, s.cOwn = none → s.toC = some b →
      exec .acquire s = .next { completed (b.setWidth 16) s with toC := none, cOwn := some b }) ∧
    (s.cOwn = none → s.toC = none → exec .acquire s = .next s) ∧
    (s.cOwn ≠ none → exec .acquire s = .next (completed 0x0200 s))

/-- R206: WAITF takes the first frame, hands the Refresher's buffer back and starts a cycle; until MODE = RUN and TO_R
is full it is held, and once left it is never the selected micro-operation again. -/
def Obligations.WaitfAdoptsTheFirstFrame : Prop :=
  decode (.seq4 0) = .ok .waitf ∧
  (∀ s : State, s.seq.phase = .waitf →
    (∀ n old, s.mode = .run → s.toR = some n → s.rOwn = some old →
      exec .waitf s =
        .next { s with toR := none, toC := some old, rOwn := some n, seq := ⟨.shdata, 1, 0, 0⟩ }) ∧
    (¬(s.mode = .run ∧ s.toR ≠ none) → exec .waitf s = .next s)) ∧
  ∀ s t : State, step s = .next t → s.seq.phase ≠ .waitf → t.seq.phase ≠ .waitf

/-- R207: POLL swaps buffers if a frame is waiting and otherwise keeps the buffer; either way it starts the next cycle.
It is reached only from ENDBLANK. -/
def Obligations.PollSwapsOrScansAgain : Prop :=
  decode (.seq4 10) = .ok .poll ∧
  (∀ s : State, s.mode = .run → s.seq.phase = .poll →
    (∀ n old, s.toR = some n → s.rOwn = some old →
      exec .poll s =
        .next { s with toR := none, toC := some old, rOwn := some n, seq := ⟨.shdata, 1, 0, 0⟩ }) ∧
    (s.toR = none → exec .poll s = .next { s with seq := ⟨.shdata, 1, 0, 0⟩ })) ∧
  ∀ s t : State, step s = .next t → t.seq.phase = .poll → s.seq.phase = .poll ∨ s.seq.phase = .endblank

/-- R201: the slot primitive alone. A signal overwrites, a take empties: after any signals the taker sees the newest
reference and then none. -/
def Obligations.SlotHoldsTheNewestOnly : Prop :=
  ∀ (start : Option Nat) (signals : List Nat) (last : Nat),
    slotTryTake ((signals ++ [last]).foldl slotSignal start) = (some last, none) ∧
    slotTryTake (slotTryTake ((signals ++ [last]).foldl slotSignal start)).2 = (none, none)

/-- R235: the OWNERSHIP refusal of the six commands: a response and nothing else. -/
def Obligations.OwnershipRefusalChangesNothing : Prop :=
  ∀ (s : State) (i : Instr),
    (s.cOwn = none ∧ ((∃ x y c, i = .set x y c) ∨ (∃ x y w h c, i = .fill x y w h c) ∨ i = .clear ∨ i = .getbuf ∨
        i = .publish)) ∨ (s.cOwn ≠ none ∧ i = .acquire) →
    exec i s = .next (completed 0x0200 s)

/-- One hand-off: PUBLISH, the Refresher's swap in WAITF or POLL, ACQUIRE. The two buffers have changed sides and both
slots are empty: ownership alternates. -/
def Obligations.HandOffExchangesTheBuffers : Prop :=
  ∀ (s : State) (a b : BufId) (p : Phase), p = .waitf ∨ p = .poll → s.mode = .run → s.seq.phase = p →
    s.cOwn = some a → s.rOwn = some b → s.toR = none → s.toC = none →
    ∃ s1 s2 s3, exec .publish s = .next s1 ∧ exec p.instr s1 = .next s2 ∧ exec .acquire s2 = .next s3 ∧
      s3.cOwn = some b ∧ s3.rOwn = some a ∧ s3.toR = none ∧ s3.toC = none ∧ s3.resp = b.setWidth 16 ∧ s3.fb = s.fb

/-! ## The whole machine -/

/-- The state after reset meets both invariants. -/
def Obligations.ResetMeetsTheInvariants : Prop := Inv State.reset ∧ LineInv State.reset

/-- Every step from a state that meets the invariant gives one that meets it: the three ownership shapes (R44), the
legal positions (R22), the configuration registers, and the canonical form of the memory. -/
def Obligations.StepKeepsTheInvariant : Prop :=
  ∀ s t : State, Inv s → step s = .next t → Inv t

/-- Every step keeps the line discipline (R178): RGB is written while CLK is low, LAT and ADDR while OE is high, CLK and
LAT writes alternate, and while OE is low ADDR holds the row latched last. -/
def Obligations.StepKeepsTheLineDiscipline : Prop :=
  ∀ s t : State, Inv s → LineInv s → step s = .next t → LineInv t

/-- No run from a good state stops: after any number of steps there is a next state, and it is good. -/
def Obligations.GoodRunNeverStops : Prop :=
  ∀ (k : Nat) (s : State), Inv s → ∃ t, runSteps k s = .next t ∧ Inv t

/-- A step writes no byte outside the Compositor's buffer, so never one of the buffer that the Refresher owns. -/
def Obligations.ScannedBufferIsNeverWritten : Prop :=
  ∀ s t : State, Memory.wf s.fb = true → step s = .next t →
    (∀ b : BufId, s.cOwn ≠ some b →
      ∀ a, b.toNat * 12288 ≤ a → a < (b.toNat + 1) * 12288 → Memory.read t.fb a = Memory.read s.fb a) ∧
    (ownershipOk s = true → ∀ b : BufId, s.rOwn = some b →
      ∀ a, b.toNat * 12288 ≤ a → a < (b.toNat + 1) * 12288 → Memory.read t.fb a = Memory.read s.fb a)

/-- R24: MODE goes from UNCONF to RUN or CFG_ERR and from RUN to HALTED and nowhere else; the brightness registers
change only in a step from UNCONF to RUN. -/
def Obligations.ModeMovesOnlyForward : Prop :=
  ∀ s t : State, step s = .next t →
    (t.mode = s.mode ∨ (s.mode = .unconf ∧ (t.mode = .run ∨ t.mode = .cfgErr)) ∨ (s.mode = .run ∧ t.mode = .halted)) ∧
    (¬(s.mode = .unconf ∧ t.mode = .run) →
      t.bitDepth = s.bitDepth ∧ t.brightnessStep = s.brightnessStep ∧ t.brightnessCount = s.brightnessCount)

/-- R243: there is no return from an error. After any number of steps a state in CFG_ERR or HALTED is still in it, and
the Refresher has not moved: SEQ, PINS, TRACE and R_OWN are what they were. -/
def Obligations.ErrorsAreFinal : Prop :=
  ∀ (k : Nat) (s : State), s.mode = .cfgErr ∨ s.mode = .halted →
    ∃ t, runSteps k s = .next t ∧ t.mode = s.mode ∧ t.seq = s.seq ∧ t.pins = s.pins ∧ t.trace = s.trace ∧
      t.rOwn = s.rOwn

/-- After an error a held ACQUIRE is held for ever: it is still the command being issued after any number of steps, and
nothing has been answered (R252). -/
def Obligations.HeldAcquireHangsAfterAnError : Prop :=
  ∀ (k : Nat) (s : State) (w : Cmd) (rest : List Cmd), s.mode = .cfgErr ∨ s.mode = .halted → s.cOwn = none →
    s.toC = none → s.port = w :: rest → decode (.c96 w) = .ok .acquire →
    ∃ t, runSteps k s = .next t ∧ t.port = s.port ∧ t.resp = s.resp ∧ t.cOwn = none ∧ t.toC = none

/-- The rights of the two agents (R246): a step of the Compositor leaves SEQ, PINS, TRACE and R_OWN alone, a step of the
Refresher the frame buffers, C_OWN, RESP and the brightness registers. -/
def Obligations.AgentsKeepToTheirRights : Prop :=
  ∀ s t : State, step s = .next t →
    (nextTurn s = .compositor → t.seq = s.seq ∧ t.pins = s.pins ∧ t.trace = s.trace ∧ t.rOwn = s.rOwn) ∧
    (nextTurn s = .refresher → t.fb = s.fb ∧ t.cOwn = s.cOwn ∧ t.resp = s.resp ∧ t.port = s.port ∧
      t.bitDepth = s.bitDepth ∧ t.brightnessStep = s.brightnessStep ∧ t.brightnessCount = s.brightnessCount)

/-- The Refresher's buffer changes only in WAITF and POLL, so never within a cycle, and then a cycle starts; TO_C is
filled only there. -/
def Obligations.FramesChangeOnlyBetweenCycles : Prop :=
  ∀ s t : State, step s = .next t → t.rOwn ≠ s.rOwn ∨ (s.toC = none ∧ t.toC ≠ none) →
    nextTurn s = .refresher ∧ s.mode = .run ∧ (s.seq.phase = .waitf ∨ s.seq.phase = .poll) ∧
      t.seq = ⟨.shdata, 1, 0, 0⟩ ∧ t.rOwn = s.toR ∧ t.toC = s.rOwn ∧ t.toR = none

/-- What the Refresher does depends on no byte outside the buffer it owns: with any other contents elsewhere it writes
the same lines and goes to the same position. -/
def Obligations.ScanIgnoresTheOtherBuffer : Prop :=
  ∀ (s : State) (b : BufId) (m : Memory), s.rOwn = some b →
    (∀ a, b.toNat * 12288 ≤ a → a < (b.toNat + 1) * 12288 → Memory.read m a = Memory.read s.fb a) →
    ∃ t, exec s.seq.phase.instr s = .next t ∧ exec s.seq.phase.instr { s with fb := m } = .next { t with fb := m }

/-- One row visit makes exactly 3 × 64 + 5 = 197 line writes, in the order of R174, and then stands at the next row,
the next level or ENDBLANK. -/
def Obligations.RowVisitMakesItsWritesInOrder : Prop :=
  ∀ (s : State) (b : BufId) (l : BitVec 8) (r : BitVec 5) (turns : List Turn) (answers : List PinAnswer),
    s.mode = .run → s.seq = ⟨.shdata, l, r, 0⟩ → s.rOwn = some b → ScansFor 197 turns answers s →
    ∃ t, runSteps 197 s = .next t ∧ ScannedTo turns answers s t ∧
      t.trace = s.trace ++ eventsOf s.pins (rowWrites s.fb b (thresh s) r) ∧
      t.pins = levelsAfter s.pins (eventsOf s.pins (rowWrites s.fb b (thresh s) r)) ∧
      t.seq = (if r.toNat < 31 then ⟨.shdata, l, r + 1, 0⟩
        else if l.toNat < s.brightnessCount.toNat then ⟨.shdata, l + 1, 0, 0⟩ else ⟨.endblank, l, r, 63⟩)

/-- One full cycle makes exactly count × 32 × 197 + 1 line writes: the levels in rising order, at each every row in
rising order, on one and the same buffer, and at the end output-enable high; then it stands at POLL. -/
def Obligations.FullCycleMakesItsWritesInOrder : Prop :=
  ∀ (s : State) (b : BufId) (turns : List Turn) (answers : List PinAnswer),
    configOk s = true → s.mode = .run → s.seq = ⟨.shdata, 1, 0, 0⟩ → s.rOwn = some b →
    ScansFor (s.brightnessCount.toNat * 32 * 197 + 1) turns answers s →
    ∃ t, runSteps (s.brightnessCount.toNat * 32 * 197 + 1) s = .next t ∧ ScannedTo turns answers s t ∧
      t.trace = s.trace ++
        eventsOf s.pins (cycleWrites s.fb b s.brightnessStep.toNat s.brightnessCount.toNat) ∧
      t.trace.length = s.trace.length + (s.brightnessCount.toNat * 32 * 197 + 1) ∧
      getField .oe t.pins = 1 ∧ t.seq = ⟨.poll, s.brightnessCount, 31, 63⟩

/-- The reference panel sink (outside the engine, assumption log 14): after the writes of one row visit it has latched
the lanes of the 64 columns, column 0, shifted first, at the far end. -/
def Obligations.PanelLatchesTheRowJustShifted : Prop :=
  ∀ (k : PanelSink) (p : Pins) (m : Memory) (b : BufId) (t : Byte) (r : BitVec 5), k.shift.length = 64 →
    (sinkRun k (eventsOf p (rowWrites m b t r))).latched =
      (List.range 64).reverse.map fun c => lanes m b r.toNat c t
end

