-- ==== Sys2Proof/Laws/Decode.lean ====
section
/-! SUPPORT. The fields of a packed command word, and which words a row of the match and mask table selects. -/

namespace Sys2Proof

section Fields

variable (h w y x : BitVec 16) (op : BitVec 8) (r g b : Byte)

@[simp] theorem cmdOp_packCmd : cmdOp (packCmd h w y x op r g b) = op := by
  refine BitVec.eq_of_getLsbD_eq fun i hi => ?_
  interval_cases i <;> simp [cmdOp, packCmd]

@[simp] theorem cmdR_packCmd : cmdR (packCmd h w y x op r g b) = r := by
  refine BitVec.eq_of_getLsbD_eq fun i hi => ?_
  interval_cases i <;> simp [cmdR, packCmd]

@[simp] theorem cmdG_packCmd : cmdG (packCmd h w y x op r g b) = g := by
  refine BitVec.eq_of_getLsbD_eq fun i hi => ?_
  interval_cases i <;> simp [cmdG, packCmd]

@[simp] theorem cmdB_packCmd : cmdB (packCmd h w y x op r g b) = b := by
  refine BitVec.eq_of_getLsbD_eq fun i hi => ?_
  interval_cases i <;> simp [cmdB, packCmd]

@[simp] theorem cmdX_packCmd : cmdX (packCmd h w y x op r g b) = x := by
  refine BitVec.eq_of_getLsbD_eq fun i hi => ?_
  interval_cases i <;> simp [cmdX, packCmd]

@[simp] theorem cmdY_packCmd : cmdY (packCmd h w y x op r g b) = y := by
  refine BitVec.eq_of_getLsbD_eq fun i hi => ?_
  interval_cases i <;> simp [cmdY, packCmd]

@[simp] theorem cmdW_packCmd : cmdW (packCmd h w y x op r g b) = w := by
  refine BitVec.eq_of_getLsbD_eq fun i hi => ?_
  interval_cases i <;> simp [cmdW, packCmd]

@[simp] theorem cmdH_packCmd : cmdH (packCmd h w y x op r g b) = h := by
  refine BitVec.eq_of_getLsbD_eq fun i hi => ?_
  interval_cases i <;> simp [cmdH, packCmd]

end Fields

/-- A word is what its eight fields pack to. -/
theorem packCmd_fields (c : Cmd) :
    packCmd (cmdH c) (cmdW c) (cmdY c) (cmdX c) (cmdOp c) (cmdR c) (cmdG c) (cmdB c) = c := by
  refine BitVec.eq_of_getLsbD_eq fun i hi => ?_
  interval_cases i <;>
    simp [packCmd, cmdH, cmdW, cmdY, cmdX, cmdOp, cmdR, cmdG, cmdB]

/-- Packing is injective in each field. -/
theorem packCmd_inj {h w y x h' w' y' x' : BitVec 16} {op op' : BitVec 8} {r g b r' g' b' : Byte} :
    packCmd h w y x op r g b = packCmd h' w' y' x' op' r' g' b' ↔
      h = h' ∧ w = w' ∧ y = y' ∧ x = x' ∧ op = op' ∧ r = r' ∧ g = g' ∧ b = b' := by
  constructor
  · intro e
    refine ⟨?_, ?_, ?_, ?_, ?_, ?_, ?_, ?_⟩
    · simpa using congrArg cmdH e
    · simpa using congrArg cmdW e
    · simpa using congrArg cmdY e
    · simpa using congrArg cmdX e
    · simpa using congrArg cmdOp e
    · simpa using congrArg cmdR e
    · simpa using congrArg cmdG e
    · simpa using congrArg cmdB e
  · rintro ⟨rfl, rfl, rfl, rfl, rfl, rfl, rfl, rfl⟩; rfl

/-! ## Zero fields -/

/-- A slice is zero iff each of its bits is clear. -/
theorem slice_eq_zero_iff {k : Nat} (w : BitVec k) (a n : Nat) :
    w.extractLsb' a n = 0 ↔ ∀ i < n, w.getLsbD (a + i) = false := by
  constructor
  · intro h i hi
    have hb : (w.extractLsb' a n).getLsbD i = (0#n).getLsbD i := congrArg (·.getLsbD i) h
    rw [BitVec.getLsbD_extractLsb', BitVec.getLsbD_zero] at hb
    simpa [hi] using hb
  · intro h
    refine BitVec.eq_of_getLsbD_eq fun i hi => ?_
    show _ = (0#n).getLsbD i
    rw [BitVec.getLsbD_extractLsb', BitVec.getLsbD_zero, h i hi, Bool.and_false]

/-- A slice is zero iff its lower and its upper part are. -/
theorem slice_eq_zero {k : Nat} (w : BitVec k) (a m n : Nat) :
    w.extractLsb' a (m + n) = 0 ↔ w.extractLsb' a m = 0 ∧ w.extractLsb' (a + m) n = 0 := by
  simp only [slice_eq_zero_iff]
  constructor
  · intro h
    exact ⟨fun i hi => h i (by omega), fun i hi => by rw [Nat.add_assoc]; exact h (m + i) (by omega)⟩
  · rintro ⟨h1, h2⟩ i hi
    by_cases hm : i < m
    · exact h1 i hm
    · have := h2 (i - m) (by omega)
      rwa [show a + m + (i - m) = a + i by omega] at this

theorem noSize_iff (w : Cmd) : noSize w = true ↔ w.extractLsb' 64 32 = 0 := by
  rw [noSize, Bool.and_eq_true, beq_iff_eq, beq_iff_eq]
  exact (slice_eq_zero w 64 16 16).symm

theorem noOrigin_and_noSize_iff (w : Cmd) : (noOrigin w && noSize w) = true ↔ w.extractLsb' 32 64 = 0 := by
  rw [Bool.and_eq_true, noSize_iff, noOrigin, Bool.and_eq_true, beq_iff_eq, beq_iff_eq,
    slice_eq_zero w 32 32 32, slice_eq_zero w 32 16 16]
  rfl

theorem noHighColor_iff (w : Cmd) : noHighColor w = true ↔ w.extractLsb' 8 16 = 0 := by
  rw [noHighColor, Bool.and_eq_true, beq_iff_eq, beq_iff_eq, slice_eq_zero w 8 8 8, and_comm]
  rfl

theorem noColor_iff (w : Cmd) : noColor w = true ↔ w.extractLsb' 0 24 = 0 := by
  rw [noColor, Bool.and_eq_true, noHighColor_iff, beq_iff_eq, slice_eq_zero w 0 8 16, and_comm]
  rfl

/-! ## The rows of the match and mask table -/

/-- What the mask of CONFIGURE keeps of a word. -/
theorem and_maskConfigure (c : Cmd) : c &&& 0xFFFFFFFFFFFFFFFFFFFFFF00 =
    packCmd (cmdH c) (cmdW c) (cmdY c) (cmdX c) (cmdOp c) (cmdR c) (cmdG c) 0 := by
  refine BitVec.eq_of_getLsbD_eq fun i hi => ?_
  interval_cases i <;> simp [packCmd, cmdH, cmdW, cmdY, cmdX, cmdOp, cmdR, cmdG]

/-- What the mask of SET keeps of a word. -/
theorem and_maskSet (c : Cmd) : c &&& 0xFFFFFFFF00000000FF000000 =
    packCmd (cmdH c) (cmdW c) 0 0 (cmdOp c) 0 0 0 := by
  refine BitVec.eq_of_getLsbD_eq fun i hi => ?_
  interval_cases i <;> simp [packCmd, cmdH, cmdW, cmdOp]

/-- What the mask of FILL keeps of a word. -/
theorem and_maskFill (c : Cmd) : c &&& 0xFF000000 = packCmd 0 0 0 0 (cmdOp c) 0 0 0 := by
  refine BitVec.eq_of_getLsbD_eq fun i hi => ?_
  interval_cases i <;> simp [packCmd, cmdOp]

/-- What the mask of a command without operands keeps of a word: all of it. -/
theorem and_maskAll (c : Cmd) : c &&& 0xFFFFFFFFFFFFFFFFFFFFFFFF = c := by
  refine BitVec.eq_of_getLsbD_eq fun i hi => ?_
  interval_cases i <;> simp

/-- A row's pattern as a packed word: only the opcode is not zero. -/
theorem pattern_eq_packCmd (op : BitVec 8) :
    op.setWidth 96 <<< 24 = packCmd 0 0 0 0 op 0 0 0 := by
  simp [packCmd]

end Sys2Proof
end

