-- ==== Sys2Proof/Laws/Memory.lean ====
section
/-! SUPPORT. The laws of the frame buffer memory: read after write, the canonical form is kept, and two memories in
canonical form that read alike are equal. -/

namespace Sys2Proof.Machine

/-! ## One byte -/

@[simp] theorem Memory.read_nil (a : Nat) : Memory.read [] a = 0 := rfl

theorem Memory.read_cons (a' : Nat) (v : Byte) (m : Memory) (a : Nat) :
    Memory.read ((a', v) :: m) a = if a = a' then v else Memory.read m a := rfl

/-- Below every address of a canonical memory nothing is listed. -/
theorem Memory.read_below {lo a : Nat} {m : Memory} (h : Memory.wfFrom lo m = true) (ha : a < lo) :
    Memory.read m a = 0 := by
  induction m generalizing lo with
  | nil => rfl
  | cons c m ih =>
    obtain ⟨a', v⟩ := c
    simp only [Memory.wfFrom, Bool.and_eq_true, decide_eq_true_eq] at h
    rw [Memory.read_cons, if_neg (by omega)]
    exact ih h.2 (by omega)

/-- Reading after `push`, where the pushed address is below all of a canonical memory. -/
theorem Memory.read_push {a : Nat} {v : Byte} {m : Memory} (h : Memory.wfFrom (a + 1) m = true) (x : Nat) :
    Memory.read (Memory.push a v m) x = if x = a then v else Memory.read m x := by
  unfold Memory.push
  by_cases hv : v = unlistedByte
  · rw [if_pos hv]
    by_cases hx : x = a
    · rw [if_pos hx, Memory.read_below h (by omega), hv]; rfl
    · rw [if_neg hx]
  · rw [if_neg hv, Memory.read_cons]

/-- A canonical memory is canonical from any lower address. -/
theorem Memory.wfFrom_mono {lo hi : Nat} {m : Memory} (h : Memory.wfFrom hi m = true) (hl : lo ≤ hi) :
    Memory.wfFrom lo m = true := by
  cases m with
  | nil => rfl
  | cons c m =>
    obtain ⟨a, v⟩ := c
    simp only [Memory.wfFrom, Bool.and_eq_true, decide_eq_true_eq] at h ⊢
    exact ⟨⟨⟨by omega, h.1.1.2⟩, h.1.2⟩, h.2⟩

theorem Memory.wfFrom_push {lo a : Nat} {v : Byte} {m : Memory} (hl : lo ≤ a) (ha : a < memoryBytes)
    (h : Memory.wfFrom (a + 1) m = true) : Memory.wfFrom lo (Memory.push a v m) = true := by
  unfold Memory.push
  split
  · exact Memory.wfFrom_mono h (by omega)
  · rename_i hv
    simp [Memory.wfFrom, hl, ha, h, hv]

theorem Memory.wfFrom_write {lo a : Nat} (v : Byte) {m : Memory} (hl : lo ≤ a) (ha : a < memoryBytes)
    (h : Memory.wfFrom lo m = true) : Memory.wfFrom lo (Memory.write a v m) = true := by
  induction m generalizing lo with
  | nil => exact Memory.wfFrom_push hl ha rfl
  | cons c m ih =>
    obtain ⟨a', v'⟩ := c
    have h' := h
    simp only [Memory.wfFrom, Bool.and_eq_true, decide_eq_true_eq] at h
    unfold Memory.write
    split
    · rename_i hlt
      refine Memory.wfFrom_push hl ha ?_
      simp only [Memory.wfFrom, Bool.and_eq_true, decide_eq_true_eq]
      exact ⟨⟨⟨by omega, h.1.1.2⟩, h.1.2⟩, h.2⟩
    · split
      · rename_i heq
        subst heq
        exact Memory.wfFrom_push hl ha h.2
      · simp only [Memory.wfFrom, Bool.and_eq_true, decide_eq_true_eq]
        exact ⟨h.1, ih (by omega) h.2⟩

/-- A write keeps the canonical form. -/
theorem Memory.wf_write {a : Nat} (v : Byte) {m : Memory} (ha : a < memoryBytes) (h : Memory.wf m = true) :
    Memory.wf (Memory.write a v m) = true :=
  Memory.wfFrom_write v (Nat.zero_le _) ha h

theorem Memory.read_write_from {lo : Nat} (a : Nat) (v : Byte) {m : Memory} (h : Memory.wfFrom lo m = true) (x : Nat) :
    Memory.read (Memory.write a v m) x = if x = a then v else Memory.read m x := by
  induction m generalizing lo with
  | nil => exact Memory.read_push (m := []) rfl x
  | cons c m ih =>
    obtain ⟨a', v'⟩ := c
    simp only [Memory.wfFrom, Bool.and_eq_true, decide_eq_true_eq] at h
    unfold Memory.write
    split
    · rename_i hlt
      refine Memory.read_push ?_ x
      simp only [Memory.wfFrom, Bool.and_eq_true, decide_eq_true_eq]
      exact ⟨⟨⟨by omega, h.1.1.2⟩, h.1.2⟩, h.2⟩
    · split
      · rename_i heq
        subst heq
        rw [Memory.read_push h.2, Memory.read_cons]
        by_cases hx : x = a <;> simp [hx]
      · rename_i hlt hne
        rw [Memory.read_cons, Memory.read_cons, ih h.2]
        by_cases hx : x = a' <;> by_cases hx' : x = a <;> simp_all

/-- Reading after a write: the written byte at its address, every other byte as before. -/
theorem Memory.read_write (a : Nat) (v : Byte) {m : Memory} (h : Memory.wf m = true) (x : Nat) :
    Memory.read (Memory.write a v m) x = if x = a then v else Memory.read m x :=
  Memory.read_write_from a v h x

/-! ## Reads decide a canonical memory -/

theorem Memory.eq_of_read_from {lo : Nat} {m n : Memory} (hm : Memory.wfFrom lo m = true)
    (hn : Memory.wfFrom lo n = true) (h : ∀ a, Memory.read m a = Memory.read n a) : m = n := by
  induction m generalizing lo n with
  | nil =>
    cases n with
    | nil => rfl
    | cons c n =>
      obtain ⟨a, v⟩ := c
      simp only [Memory.wfFrom, Bool.and_eq_true, decide_eq_true_eq, bne_iff_ne] at hn
      have := h a
      rw [Memory.read_cons, if_pos rfl] at this
      exact absurd this.symm hn.1.2
  | cons c m ih =>
    obtain ⟨a, v⟩ := c
    simp only [Memory.wfFrom, Bool.and_eq_true, decide_eq_true_eq, bne_iff_ne] at hm
    cases n with
    | nil =>
      have := h a
      rw [Memory.read_cons, if_pos rfl] at this
      exact absurd this hm.1.2
    | cons d n =>
      obtain ⟨a', v'⟩ := d
      simp only [Memory.wfFrom, Bool.and_eq_true, decide_eq_true_eq, bne_iff_ne] at hn
      have ha := h a
      have ha' := h a'
      simp only [Memory.read_cons] at ha ha'
      have haa : a = a' := by
        by_contra hne
        rcases Nat.lt_or_gt_of_ne hne with hlt | hlt
        · rw [if_pos trivial, if_neg hne, Memory.read_below hn.2 (by omega)] at ha
          exact hm.1.2 ha
        · rw [if_pos trivial, if_neg (Ne.symm hne), Memory.read_below hm.2 (by omega)] at ha'
          exact hn.1.2 ha'.symm
      subst haa
      rw [if_pos trivial, if_pos rfl] at ha
      subst ha
      have hrest : m = n := by
        refine ih hm.2 hn.2 fun x => ?_
        have hx := h x
        simp only [Memory.read_cons] at hx
        by_cases hxa : x = a
        · subst hxa
          rw [Memory.read_below hm.2 (by omega), Memory.read_below hn.2 (by omega)]
        · rwa [if_neg hxa, if_neg hxa] at hx
      rw [hrest]

/-- Two memories in canonical form that hold the same byte everywhere are equal. -/
theorem Memory.eq_of_read {m n : Memory} (hm : Memory.wf m = true) (hn : Memory.wf n = true)
    (h : ∀ a, Memory.read m a = Memory.read n a) : m = n :=
  Memory.eq_of_read_from hm hn h

/-! ## Pixels -/

theorem bufId_toNat_lt (b : BufId) : b.toNat < 2 := b.isLt

/-- The address of a pixel inside the grid is inside its buffer. -/
theorem pixelAddr_bounds (b : BufId) {y x : Nat} (hy : y < Config.rows) (hx : x < Config.cols) :
    b.toNat * bufferBytes ≤ pixelAddr b y x ∧ pixelAddr b y x + 2 < (b.toNat + 1) * bufferBytes := by
  have := bufId_toNat_lt b
  simp only [pixelAddr, bufferBytes, Config.rows, Config.cols] at *
  omega

theorem pixelAddr_lt (b : BufId) {y x : Nat} (hy : y < Config.rows) (hx : x < Config.cols) :
    pixelAddr b y x + 2 < memoryBytes := by
  have h := pixelAddr_bounds b hy hx
  have := bufId_toNat_lt b
  simp only [memoryBytes, bufferBytes, Config.rows, Config.cols, Config.numBuffers] at *
  omega

/-- Different pixels of the grids have their bytes apart. -/
theorem pixelAddr_apart {b b' : BufId} {y x y' x' : Nat} (hy : y < Config.rows) (hx : x < Config.cols)
    (hy' : y' < Config.rows) (hx' : x' < Config.cols) (h : ¬(b = b' ∧ y = y' ∧ x = x')) :
    pixelAddr b y x + 2 < pixelAddr b' y' x' ∨ pixelAddr b' y' x' + 2 < pixelAddr b y x := by
  have h1 := bufId_toNat_lt b
  have h2 := bufId_toNat_lt b'
  have hb : b = b' ↔ b.toNat = b'.toNat := BitVec.toNat_inj.symm
  rw [hb] at h
  simp only [pixelAddr, bufferBytes, Config.rows, Config.cols] at *
  omega

theorem fbWrite_wf (b : BufId) {y x : Nat} (p : Pixel) {m : Memory} (hy : y < Config.rows) (hx : x < Config.cols)
    (h : Memory.wf m = true) : Memory.wf (fbWrite b y x p m) = true := by
  have := pixelAddr_lt b hy hx
  exact Memory.wf_write _ (by omega) (Memory.wf_write _ (by omega) (Memory.wf_write _ (by omega) h))

/-- What a pixel write does to one byte. -/
theorem read_fbWrite (b : BufId) {y x : Nat} (p : Pixel) {m : Memory} (hy : y < Config.rows) (hx : x < Config.cols)
    (h : Memory.wf m = true) (a : Nat) :
    Memory.read (fbWrite b y x p m) a =
      if a = pixelAddr b y x then p.r
      else if a = pixelAddr b y x + 1 then p.g
      else if a = pixelAddr b y x + 2 then p.b
      else Memory.read m a := by
  have hl := pixelAddr_lt b hy hx
  have h2 := Memory.wf_write p.b (a := pixelAddr b y x + 2) (by omega) h
  have h1 := Memory.wf_write p.g (a := pixelAddr b y x + 1) (by omega) h2
  unfold fbWrite
  rw [Memory.read_write _ _ h1, Memory.read_write _ _ h2, Memory.read_write _ _ h]

/-- A byte outside the written pixel reads as before. -/
theorem read_fbWrite_other (b : BufId) {y x : Nat} (p : Pixel) {m : Memory} (hy : y < Config.rows)
    (hx : x < Config.cols) (h : Memory.wf m = true) {a : Nat}
    (ha : a < pixelAddr b y x ∨ pixelAddr b y x + 2 < a) :
    Memory.read (fbWrite b y x p m) a = Memory.read m a := by
  rw [read_fbWrite b p hy hx h, if_neg (by omega), if_neg (by omega), if_neg (by omega)]

/-- The written pixel reads as written. -/
theorem fbRead_fbWrite_same (b : BufId) {y x : Nat} (p : Pixel) {m : Memory} (hy : y < Config.rows)
    (hx : x < Config.cols) (h : Memory.wf m = true) : fbRead (fbWrite b y x p m) b y x = p := by
  simp [fbRead, read_fbWrite b p hy hx h]

/-- Every other pixel of the grids reads as before. -/
theorem fbRead_fbWrite_other {b b' : BufId} {y x y' x' : Nat} (p : Pixel) {m : Memory} (hy : y < Config.rows)
    (hx : x < Config.cols) (hy' : y' < Config.rows) (hx' : x' < Config.cols) (h : Memory.wf m = true)
    (hne : ¬(b = b' ∧ y = y' ∧ x = x')) : fbRead (fbWrite b y x p m) b' y' x' = fbRead m b' y' x' := by
  have := pixelAddr_apart hy hx hy' hx' hne
  simp only [fbRead]
  rw [read_fbWrite_other b p hy hx h (by omega), read_fbWrite_other b p hy hx h (by omega),
    read_fbWrite_other b p hy hx h (by omega)]

/-! ## Clearing a buffer -/

/-- The bytes of buffer `b` are 12288 from `b` × 12288 on. -/
theorem inBuffer_iff (b : BufId) (a : Nat) :
    inBuffer b a = true ↔ b.toNat * 12288 ≤ a ∧ a < (b.toNat + 1) * 12288 := by
  rw [inBuffer, Bool.and_eq_true, decide_eq_true_eq, decide_eq_true_eq]
  rfl


theorem Memory.wfFrom_filter (keep : Host.Cell → Bool) {lo : Nat} {m : Memory} (h : Memory.wfFrom lo m = true) :
    Memory.wfFrom lo (m.filter keep) = true := by
  induction m generalizing lo with
  | nil => rfl
  | cons c m ih =>
    obtain ⟨a, v⟩ := c
    simp only [Memory.wfFrom, Bool.and_eq_true, decide_eq_true_eq] at h
    rw [List.filter_cons]
    split
    · simp only [Memory.wfFrom, Bool.and_eq_true, decide_eq_true_eq]
      exact ⟨h.1, ih h.2⟩
    · exact Memory.wfFrom_mono (ih h.2) (by omega)

theorem fbClear_wf (b : BufId) {m : Memory} (h : Memory.wf m = true) : Memory.wf (fbClear b m) = true :=
  Memory.wfFrom_filter _ h

theorem Memory.read_filter_addr (keep : Nat → Bool) (m : Memory) (a : Nat) :
    Memory.read (m.filter fun c => keep c.1) a = if keep a then Memory.read m a else 0 := by
  induction m with
  | nil => simp
  | cons c m ih =>
    obtain ⟨a', v⟩ := c
    rw [List.filter_cons]
    split
    · rw [Memory.read_cons, Memory.read_cons, ih]
      by_cases hx : a = a' <;> simp_all
    · rw [ih, Memory.read_cons]
      by_cases hx : a = a' <;> simp_all

/-- Clearing a buffer: its bytes read as 0, every other byte as before. -/
theorem read_fbClear (b : BufId) (m : Memory) (a : Nat) :
    Memory.read (fbClear b m) a = if inBuffer b a then 0 else Memory.read m a := by
  have h := Memory.read_filter_addr (fun x => !inBuffer b x) m a
  unfold fbClear
  rw [h]
  cases inBuffer b a <;> rfl

/-! ## Writing many pixels -/

theorem mem_gridCells {y x : Nat} : (y, x) ∈ gridCells ↔ y < Config.rows ∧ x < Config.cols := by
  simp [gridCells]

theorem fbWriteWhere_nil (b : BufId) (inside : Nat → Nat → Bool) (p : Pixel) (m : Memory) :
    fbWriteWhere b inside p [] m = m := rfl

theorem fbWriteWhere_cons (b : BufId) (inside : Nat → Nat → Bool) (p : Pixel) (c : Nat × Nat)
    (cells : List (Nat × Nat)) (m : Memory) :
    fbWriteWhere b inside p (c :: cells) m =
      if inside c.1 c.2 then fbWrite b c.1 c.2 p (fbWriteWhere b inside p cells m)
      else fbWriteWhere b inside p cells m := rfl

/-- The positions of a list that lie in the grid. -/
def InGrid (cells : List (Nat × Nat)) : Prop := ∀ c ∈ cells, c.1 < Config.rows ∧ c.2 < Config.cols

theorem inGrid_gridCells : InGrid gridCells := fun _ hc => mem_gridCells.1 hc

theorem fbWriteWhere_wf (b : BufId) (inside : Nat → Nat → Bool) (p : Pixel) {cells : List (Nat × Nat)} {m : Memory}
    (hg : InGrid cells) (h : Memory.wf m = true) : Memory.wf (fbWriteWhere b inside p cells m) = true := by
  induction cells with
  | nil => exact h
  | cons c cells ih =>
    have ih := ih fun d hd => hg d (List.mem_cons_of_mem _ hd)
    have hc := hg c List.mem_cons_self
    rw [fbWriteWhere_cons]
    split
    · exact fbWrite_wf b p hc.1 hc.2 ih
    · exact ih

/-- A pixel after writing many: written if it is listed and inside, otherwise as before. -/
theorem fbRead_fbWriteWhere (b : BufId) (inside : Nat → Nat → Bool) (p : Pixel) {cells : List (Nat × Nat)} {m : Memory}
    (hg : InGrid cells) (h : Memory.wf m = true) (b' : BufId) {y x : Nat} (hy : y < Config.rows) (hx : x < Config.cols) :
    fbRead (fbWriteWhere b inside p cells m) b' y x =
      if b = b' ∧ (y, x) ∈ cells ∧ inside y x = true then p else fbRead m b' y x := by
  induction cells with
  | nil => simp [fbWriteWhere_nil]
  | cons c cells ih =>
    have hg' : InGrid cells := fun d hd => hg d (List.mem_cons_of_mem _ hd)
    have hwf := fbWriteWhere_wf b inside p hg' h
    have ih := ih hg'
    obtain ⟨cy, cx⟩ := c
    have hc := hg (cy, cx) List.mem_cons_self
    rw [fbWriteWhere_cons]
    by_cases hin : inside cy cx = true
    · rw [if_pos hin]
      by_cases heq : b = b' ∧ cy = y ∧ cx = x
      · obtain ⟨rfl, rfl, rfl⟩ := heq
        rw [fbRead_fbWrite_same b p hc.1 hc.2 hwf]
        simp [hin]
      · rw [fbRead_fbWrite_other p hc.1 hc.2 hy hx hwf heq, ih]
        by_cases hb : b = b' <;> grind
    · rw [if_neg hin, ih]
      by_cases hb : b = b' <;> grind

/-- A byte outside the buffer reads as before. -/
theorem read_fbWriteWhere_outside (b : BufId) (inside : Nat → Nat → Bool) (p : Pixel) {cells : List (Nat × Nat)}
    {m : Memory} (hg : InGrid cells) (h : Memory.wf m = true) {a : Nat} (ha : inBuffer b a = false) :
    Memory.read (fbWriteWhere b inside p cells m) a = Memory.read m a := by
  induction cells with
  | nil => rfl
  | cons c cells ih =>
    have hg' : InGrid cells := fun d hd => hg d (List.mem_cons_of_mem _ hd)
    have hwf := fbWriteWhere_wf b inside p hg' h
    have hc := hg c List.mem_cons_self
    have hb := pixelAddr_bounds b hc.1 hc.2
    simp only [inBuffer, Bool.and_eq_false_iff, decide_eq_false_iff_not] at ha
    rw [fbWriteWhere_cons]
    split
    · rw [read_fbWrite_other b p hc.1 hc.2 hwf (by omega), ih hg']
    · exact ih hg'

/-- A byte of no written pixel reads as before. -/
theorem read_fbWriteWhere_other (b : BufId) (inside : Nat → Nat → Bool) (p : Pixel) {cells : List (Nat × Nat)}
    {m : Memory} (hg : InGrid cells) (h : Memory.wf m = true) {a : Nat}
    (ha : ∀ c ∈ cells, inside c.1 c.2 = true → a < pixelAddr b c.1 c.2 ∨ pixelAddr b c.1 c.2 + 2 < a) :
    Memory.read (fbWriteWhere b inside p cells m) a = Memory.read m a := by
  induction cells with
  | nil => rfl
  | cons c cells ih =>
    have hg' : InGrid cells := fun d hd => hg d (List.mem_cons_of_mem _ hd)
    have ih := ih hg' fun d hd => ha d (List.mem_cons_of_mem _ hd)
    have hc := hg c List.mem_cons_self
    rw [fbWriteWhere_cons]
    split
    · rename_i hin
      rw [read_fbWrite_other b p hc.1 hc.2 (fbWriteWhere_wf b inside p hg' h) (ha c List.mem_cons_self hin), ih]
    · exact ih

/-! ## Reads pixel by pixel -/

/-- Every byte of the frame buffers is one of the three of some pixel. -/
theorem addr_of_pixel {a : Nat} (ha : a < memoryBytes) :
    ∃ (b : BufId) (y x k : Nat), y < Config.rows ∧ x < Config.cols ∧ k < 3 ∧ a = pixelAddr b y x + k := by
  simp only [memoryBytes, bufferBytes, Config.rows, Config.cols, Config.numBuffers] at ha
  refine ⟨BitVec.ofNat 1 (a / 12288), a % 12288 / 192, a % 192 / 3, a % 3, ?_, ?_, by omega, ?_⟩
  · simp only [Config.rows]; omega
  · simp only [Config.cols]; omega
  · have hb : (BitVec.ofNat 1 (a / 12288)).toNat = a / 12288 := by
      rw [BitVec.toNat_ofNat]; exact Nat.mod_eq_of_lt (by omega)
    simp only [pixelAddr, bufferBytes, hb, Config.rows, Config.cols]
    omega

theorem Memory.read_above {m : Memory} {lo : Nat} (h : Memory.wfFrom lo m = true) {a : Nat} (ha : memoryBytes ≤ a) :
    Memory.read m a = 0 := by
  induction m generalizing lo with
  | nil => rfl
  | cons c m ih =>
    obtain ⟨a', v⟩ := c
    simp only [Memory.wfFrom, Bool.and_eq_true, decide_eq_true_eq] at h
    rw [Memory.read_cons, if_neg (by omega)]
    exact ih h.2

/-- Two memories in canonical form that hold the same pixels are equal. -/
theorem Memory.eq_of_fbRead {m n : Memory} (hm : Memory.wf m = true) (hn : Memory.wf n = true)
    (h : ∀ (b : BufId) (y x : Nat), y < Config.rows → x < Config.cols → fbRead m b y x = fbRead n b y x) : m = n := by
  refine Memory.eq_of_read hm hn fun a => ?_
  by_cases ha : a < memoryBytes
  · obtain ⟨b, y, x, k, hy, hx, hk, rfl⟩ := addr_of_pixel ha
    have hp := h b y x hy hx
    simp only [fbRead, Pixel.mk.injEq] at hp
    obtain ⟨h0, h1, h2⟩ := hp
    obtain rfl | rfl | rfl : k = 0 ∨ k = 1 ∨ k = 2 := by omega
    · rw [Nat.add_zero, h0]
    · rw [h1]
    · rw [h2]
  · rw [Memory.read_above hm (by omega), Memory.read_above hn (by omega)]

/-- A byte of pixel (b', y, x) is a byte of buffer `b` iff the buffers are the same. -/
theorem inBuffer_pixelAddr (b b' : BufId) {y x k : Nat} (hy : y < Config.rows) (hx : x < Config.cols) (hk : k < 3) :
    inBuffer b (pixelAddr b' y x + k) = decide (b = b') := by
  have h1 := bufId_toNat_lt b
  have h2 := bufId_toNat_lt b'
  have hp := pixelAddr_bounds b' hy hx
  rw [inBuffer, ← Bool.decide_and, decide_eq_decide, ← BitVec.toNat_inj]
  generalize pixelAddr b' y x = p at *
  simp only [bufferBytes, Config.rows, Config.cols] at *
  omega

/-- Clearing a buffer, pixel by pixel. -/
theorem fbRead_fbClear (b b' : BufId) (m : Memory) {y x : Nat} (hy : y < Config.rows) (hx : x < Config.cols) :
    fbRead (fbClear b m) b' y x = if b = b' then ⟨0, 0, 0⟩ else fbRead m b' y x := by
  have e0 := inBuffer_pixelAddr b b' hy hx (k := 0) (by omega)
  have e1 := inBuffer_pixelAddr b b' hy hx (k := 1) (by omega)
  have e2 := inBuffer_pixelAddr b b' hy hx (k := 2) (by omega)
  rw [Nat.add_zero] at e0
  simp only [fbRead, read_fbClear, e0, e1, e2]
  by_cases hb : b = b' <;> simp [hb]

end Sys2Proof.Machine
end

