-- ==== Sys2Proof/Laws/Pins.lean ====
section
/-! SUPPORT. The laws of the fields of PINS. -/

namespace Sys2Proof.Machine

theorem Field.width_le (f : Field) : f.width ≤ 6 := by cases f <;> decide

/-- Bit by bit: a field write changes exactly the bits of its field. -/
theorem getLsbD_setField (f : Field) (v : FieldVal) (p : Pins) {k : Nat} (hk : k < 14) :
    (setField f v p).getLsbD k =
      if f.low ≤ k ∧ k < f.low + f.width then v.getLsbD (k - f.low) else p.getLsbD k := by
  cases f <;> interval_cases k <;> simp [setField, Field.mask, Field.low, Field.width]

/-- Bit by bit: the value of a field. -/
theorem getLsbD_getField (f : Field) (p : Pins) (j : Nat) :
    (getField f p).getLsbD j = (decide (j < f.width) && p.getLsbD (f.low + j)) := by
  by_cases hj : j < 6
  · cases f <;> interval_cases j <;> simp [getField, Field.mask, Field.low, Field.width]
  · have h6 : (getField f p).getLsbD j = false := BitVec.getLsbD_of_ge _ _ (by omega)
    have hw : ¬j < f.width := by have := f.width_le; omega
    simp [h6, hw]

/-- A field that is not written keeps its value. -/
theorem getField_setField_other {f g : Field} (h : f ≠ g) (v : FieldVal) (p : Pins) :
    getField g (setField f v p) = getField g p := by
  refine BitVec.eq_of_getLsbD_eq fun j hj => ?_
  rw [getLsbD_getField, getLsbD_getField]
  by_cases hw : j < g.width
  · have hk : g.low + j < 14 := by cases g <;> simp only [Field.low, Field.width] at * <;> omega
    rw [getLsbD_setField f v p hk]
    have hout : ¬(f.low ≤ g.low + j ∧ g.low + j < f.low + f.width) := by
      cases f <;> cases g <;> first | exact absurd rfl h | (simp only [Field.low, Field.width] at *; omega)
    rw [if_neg hout]
  · simp [hw]

/-- The written field has the written value, cut to the field's width. -/
theorem getLsbD_getField_setField (f : Field) (v : FieldVal) (p : Pins) (j : Nat) :
    (getField f (setField f v p)).getLsbD j = (decide (j < f.width) && v.getLsbD j) := by
  rw [getLsbD_getField]
  by_cases hw : j < f.width
  · have hk : f.low + j < 14 := by cases f <;> simp only [Field.low, Field.width] at * <;> omega
    rw [getLsbD_setField f v p hk, if_pos ⟨by omega, by omega⟩]
    simp
  · simp [hw]

/-- A value that fits the field is read back as written. -/
theorem getField_setField_same {f : Field} {v : FieldVal} (hv : v.toNat < 2 ^ f.width) (p : Pins) :
    getField f (setField f v p) = v := by
  refine BitVec.eq_of_getLsbD_eq fun j hj => ?_
  rw [getLsbD_getField_setField]
  by_cases hw : j < f.width
  · simp [hw]
  · have : v.getLsbD j = false := by
      rw [BitVec.getLsbD, Nat.testBit_lt_two_pow]
      exact Nat.lt_of_lt_of_le hv (Nat.pow_le_pow_right (by omega) (by omega))
    simp [hw, this]

@[simp] theorem getField_setField_rgb (v : FieldVal) (p : Pins) : getField .rgb (setField .rgb v p) = v :=
  getField_setField_same v.isLt p

@[simp] theorem getField_setField_addr (r : BitVec 5) (p : Pins) :
    getField .addr (setField .addr (r.setWidth 6) p) = r.setWidth 6 :=
  getField_setField_same (by
    have := r.isLt
    simp only [BitVec.toNat_setWidth, Field.width]
    omega) p

/-- Two pin words with the same five fields are equal. -/
theorem pins_eq_of_fields {p q : Pins} (h : ∀ f, getField f p = getField f q) : p = q := by
  refine BitVec.eq_of_getLsbD_eq fun k hk => ?_
  have hb : ∀ (f : Field) (j : Nat), j < f.width → p.getLsbD (f.low + j) = q.getLsbD (f.low + j) := by
    intro f j hj
    have := congrArg (·.getLsbD j) (h f)
    simpa [getLsbD_getField, hj] using this
  by_cases h0 : k < 6
  · simpa [Field.low] using hb .rgb k (by simpa [Field.width] using h0)
  by_cases h1 : k < 11
  · have := hb .addr (k - 6) (by simp only [Field.width]; omega)
    rwa [show Field.addr.low + (k - 6) = k by simp only [Field.low]; omega] at this
  obtain rfl | rfl | rfl : k = 11 ∨ k = 12 ∨ k = 13 := by omega
  · exact hb .clk 0 (by decide)
  · exact hb .lat 0 (by decide)
  · exact hb .oe 0 (by decide)

/-- Writing the value that a field of `q` has makes the pin word agree with `q` there. -/
theorem setField_getField_eq {f : Field} {p q : Pins} (h : ∀ g, g ≠ f → getField g p = getField g q) :
    setField f (getField f q) p = q := by
  refine pins_eq_of_fields fun g => ?_
  by_cases hg : g = f
  · subst hg
    refine BitVec.eq_of_getLsbD_eq fun j hj => ?_
    rw [getLsbD_getField_setField, getLsbD_getField]
    cases decide (j < g.width) <;> simp
  · rw [getField_setField_other (Ne.symm hg), h g hg]

/-- The written field of a write is what the write leaves there. -/
theorem setField_getField_setField (f : Field) (v : FieldVal) (p : Pins) :
    setField f (getField f (setField f v p)) p = setField f v p :=
  setField_getField_eq fun _ hg => (getField_setField_other (Ne.symm hg) v p).symm

end Sys2Proof.Machine
end

