-- ==== Sys2Proof/Laws/State.lean ====
section
/-! SUPPORT. One lemma per field per update: what every named update of the state leaves in each field. -/

namespace Sys2Proof.Machine

@[simp] theorem respond_mode (c : RespCode) (d : BitVec 8) (s : State) : (respond c d s).mode = s.mode := rfl
@[simp] theorem respond_bitDepth (c : RespCode) (d : BitVec 8) (s : State) : (respond c d s).bitDepth = s.bitDepth := rfl
@[simp] theorem respond_brightnessStep (c : RespCode) (d : BitVec 8) (s : State) : (respond c d s).brightnessStep = s.brightnessStep := rfl
@[simp] theorem respond_brightnessCount (c : RespCode) (d : BitVec 8) (s : State) : (respond c d s).brightnessCount = s.brightnessCount := rfl
@[simp] theorem respond_seq (c : RespCode) (d : BitVec 8) (s : State) : (respond c d s).seq = s.seq := rfl
@[simp] theorem respond_pins (c : RespCode) (d : BitVec 8) (s : State) : (respond c d s).pins = s.pins := rfl
@[simp] theorem respond_cOwn (c : RespCode) (d : BitVec 8) (s : State) : (respond c d s).cOwn = s.cOwn := rfl
@[simp] theorem respond_rOwn (c : RespCode) (d : BitVec 8) (s : State) : (respond c d s).rOwn = s.rOwn := rfl
@[simp] theorem respond_toR (c : RespCode) (d : BitVec 8) (s : State) : (respond c d s).toR = s.toR := rfl
@[simp] theorem respond_toC (c : RespCode) (d : BitVec 8) (s : State) : (respond c d s).toC = s.toC := rfl
@[simp] theorem respond_resp (c : RespCode) (d : BitVec 8) (s : State) : (respond c d s).resp = respWord c d := rfl
@[simp] theorem respond_fb (c : RespCode) (d : BitVec 8) (s : State) : (respond c d s).fb = s.fb := rfl
@[simp] theorem respond_trace (c : RespCode) (d : BitVec 8) (s : State) : (respond c d s).trace = s.trace := rfl
@[simp] theorem respond_port (c : RespCode) (d : BitVec 8) (s : State) : (respond c d s).port = s.port.tail := rfl
@[simp] theorem respond_turns (c : RespCode) (d : BitVec 8) (s : State) : (respond c d s).turns = s.turns := rfl
@[simp] theorem respond_pinAnswers (c : RespCode) (d : BitVec 8) (s : State) : (respond c d s).pinAnswers = s.pinAnswers := rfl
@[simp] theorem respond_draws (c : RespCode) (d : BitVec 8) (s : State) : (respond c d s).draws = s.draws := rfl

@[simp] theorem refuseIllegal_mode (s : State) : (refuseIllegal s).mode = s.mode := rfl
@[simp] theorem refuseIllegal_bitDepth (s : State) : (refuseIllegal s).bitDepth = s.bitDepth := rfl
@[simp] theorem refuseIllegal_brightnessStep (s : State) : (refuseIllegal s).brightnessStep = s.brightnessStep := rfl
@[simp] theorem refuseIllegal_brightnessCount (s : State) : (refuseIllegal s).brightnessCount = s.brightnessCount := rfl
@[simp] theorem refuseIllegal_seq (s : State) : (refuseIllegal s).seq = s.seq := rfl
@[simp] theorem refuseIllegal_pins (s : State) : (refuseIllegal s).pins = s.pins := rfl
@[simp] theorem refuseIllegal_cOwn (s : State) : (refuseIllegal s).cOwn = s.cOwn := rfl
@[simp] theorem refuseIllegal_rOwn (s : State) : (refuseIllegal s).rOwn = s.rOwn := rfl
@[simp] theorem refuseIllegal_toR (s : State) : (refuseIllegal s).toR = s.toR := rfl
@[simp] theorem refuseIllegal_toC (s : State) : (refuseIllegal s).toC = s.toC := rfl
@[simp] theorem refuseIllegal_resp (s : State) : (refuseIllegal s).resp = respWord .illegalCmd 0 := rfl
@[simp] theorem refuseIllegal_fb (s : State) : (refuseIllegal s).fb = s.fb := rfl
@[simp] theorem refuseIllegal_trace (s : State) : (refuseIllegal s).trace = s.trace := rfl
@[simp] theorem refuseIllegal_port (s : State) : (refuseIllegal s).port = s.port.tail := rfl
@[simp] theorem refuseIllegal_turns (s : State) : (refuseIllegal s).turns = s.turns := rfl
@[simp] theorem refuseIllegal_pinAnswers (s : State) : (refuseIllegal s).pinAnswers = s.pinAnswers := rfl
@[simp] theorem refuseIllegal_draws (s : State) : (refuseIllegal s).draws = s.draws := rfl

@[simp] theorem refuseOwnership_mode (s : State) : (refuseOwnership s).mode = s.mode := rfl
@[simp] theorem refuseOwnership_bitDepth (s : State) : (refuseOwnership s).bitDepth = s.bitDepth := rfl
@[simp] theorem refuseOwnership_brightnessStep (s : State) : (refuseOwnership s).brightnessStep = s.brightnessStep := rfl
@[simp] theorem refuseOwnership_brightnessCount (s : State) : (refuseOwnership s).brightnessCount = s.brightnessCount := rfl
@[simp] theorem refuseOwnership_seq (s : State) : (refuseOwnership s).seq = s.seq := rfl
@[simp] theorem refuseOwnership_pins (s : State) : (refuseOwnership s).pins = s.pins := rfl
@[simp] theorem refuseOwnership_cOwn (s : State) : (refuseOwnership s).cOwn = s.cOwn := rfl
@[simp] theorem refuseOwnership_rOwn (s : State) : (refuseOwnership s).rOwn = s.rOwn := rfl
@[simp] theorem refuseOwnership_toR (s : State) : (refuseOwnership s).toR = s.toR := rfl
@[simp] theorem refuseOwnership_toC (s : State) : (refuseOwnership s).toC = s.toC := rfl
@[simp] theorem refuseOwnership_resp (s : State) : (refuseOwnership s).resp = respWord .ownership 0 := rfl
@[simp] theorem refuseOwnership_fb (s : State) : (refuseOwnership s).fb = s.fb := rfl
@[simp] theorem refuseOwnership_trace (s : State) : (refuseOwnership s).trace = s.trace := rfl
@[simp] theorem refuseOwnership_port (s : State) : (refuseOwnership s).port = s.port.tail := rfl
@[simp] theorem refuseOwnership_turns (s : State) : (refuseOwnership s).turns = s.turns := rfl
@[simp] theorem refuseOwnership_pinAnswers (s : State) : (refuseOwnership s).pinAnswers = s.pinAnswers := rfl
@[simp] theorem refuseOwnership_draws (s : State) : (refuseOwnership s).draws = s.draws := rfl

@[simp] theorem refuseBadState_mode (s : State) : (refuseBadState s).mode = s.mode := rfl
@[simp] theorem refuseBadState_bitDepth (s : State) : (refuseBadState s).bitDepth = s.bitDepth := rfl
@[simp] theorem refuseBadState_brightnessStep (s : State) : (refuseBadState s).brightnessStep = s.brightnessStep := rfl
@[simp] theorem refuseBadState_brightnessCount (s : State) : (refuseBadState s).brightnessCount = s.brightnessCount := rfl
@[simp] theorem refuseBadState_seq (s : State) : (refuseBadState s).seq = s.seq := rfl
@[simp] theorem refuseBadState_pins (s : State) : (refuseBadState s).pins = s.pins := rfl
@[simp] theorem refuseBadState_cOwn (s : State) : (refuseBadState s).cOwn = s.cOwn := rfl
@[simp] theorem refuseBadState_rOwn (s : State) : (refuseBadState s).rOwn = s.rOwn := rfl
@[simp] theorem refuseBadState_toR (s : State) : (refuseBadState s).toR = s.toR := rfl
@[simp] theorem refuseBadState_toC (s : State) : (refuseBadState s).toC = s.toC := rfl
@[simp] theorem refuseBadState_resp (s : State) : (refuseBadState s).resp = respWord .badState 0 := rfl
@[simp] theorem refuseBadState_fb (s : State) : (refuseBadState s).fb = s.fb := rfl
@[simp] theorem refuseBadState_trace (s : State) : (refuseBadState s).trace = s.trace := rfl
@[simp] theorem refuseBadState_port (s : State) : (refuseBadState s).port = s.port.tail := rfl
@[simp] theorem refuseBadState_turns (s : State) : (refuseBadState s).turns = s.turns := rfl
@[simp] theorem refuseBadState_pinAnswers (s : State) : (refuseBadState s).pinAnswers = s.pinAnswers := rfl
@[simp] theorem refuseBadState_draws (s : State) : (refuseBadState s).draws = s.draws := rfl

@[simp] theorem raiseConfigError_mode (s : State) : (raiseConfigError s).mode = .cfgErr := rfl
@[simp] theorem raiseConfigError_bitDepth (s : State) : (raiseConfigError s).bitDepth = s.bitDepth := rfl
@[simp] theorem raiseConfigError_brightnessStep (s : State) : (raiseConfigError s).brightnessStep = s.brightnessStep := rfl
@[simp] theorem raiseConfigError_brightnessCount (s : State) : (raiseConfigError s).brightnessCount = s.brightnessCount := rfl
@[simp] theorem raiseConfigError_seq (s : State) : (raiseConfigError s).seq = s.seq := rfl
@[simp] theorem raiseConfigError_pins (s : State) : (raiseConfigError s).pins = s.pins := rfl
@[simp] theorem raiseConfigError_cOwn (s : State) : (raiseConfigError s).cOwn = s.cOwn := rfl
@[simp] theorem raiseConfigError_rOwn (s : State) : (raiseConfigError s).rOwn = s.rOwn := rfl
@[simp] theorem raiseConfigError_toR (s : State) : (raiseConfigError s).toR = s.toR := rfl
@[simp] theorem raiseConfigError_toC (s : State) : (raiseConfigError s).toC = s.toC := rfl
@[simp] theorem raiseConfigError_resp (s : State) : (raiseConfigError s).resp = respWord .configError 0 := rfl
@[simp] theorem raiseConfigError_fb (s : State) : (raiseConfigError s).fb = s.fb := rfl
@[simp] theorem raiseConfigError_trace (s : State) : (raiseConfigError s).trace = s.trace := rfl
@[simp] theorem raiseConfigError_port (s : State) : (raiseConfigError s).port = s.port.tail := rfl
@[simp] theorem raiseConfigError_turns (s : State) : (raiseConfigError s).turns = s.turns := rfl
@[simp] theorem raiseConfigError_pinAnswers (s : State) : (raiseConfigError s).pinAnswers = s.pinAnswers := rfl
@[simp] theorem raiseConfigError_draws (s : State) : (raiseConfigError s).draws = s.draws := rfl

@[simp] theorem setBrightness_mode (d : Nat) (s : State) : (setBrightness d s).mode = .run := rfl
@[simp] theorem setBrightness_bitDepth (d : Nat) (s : State) : (setBrightness d s).bitDepth = BitVec.ofNat 4 d := rfl
@[simp] theorem setBrightness_brightnessStep (d : Nat) (s : State) : (setBrightness d s).brightnessStep = BitVec.ofNat 8 (stepOfDepth d) := rfl
@[simp] theorem setBrightness_brightnessCount (d : Nat) (s : State) : (setBrightness d s).brightnessCount = BitVec.ofNat 8 (countOfDepth d) := rfl
@[simp] theorem setBrightness_seq (d : Nat) (s : State) : (setBrightness d s).seq = s.seq := rfl
@[simp] theorem setBrightness_pins (d : Nat) (s : State) : (setBrightness d s).pins = s.pins := rfl
@[simp] theorem setBrightness_cOwn (d : Nat) (s : State) : (setBrightness d s).cOwn = s.cOwn := rfl
@[simp] theorem setBrightness_rOwn (d : Nat) (s : State) : (setBrightness d s).rOwn = s.rOwn := rfl
@[simp] theorem setBrightness_toR (d : Nat) (s : State) : (setBrightness d s).toR = s.toR := rfl
@[simp] theorem setBrightness_toC (d : Nat) (s : State) : (setBrightness d s).toC = s.toC := rfl
@[simp] theorem setBrightness_resp (d : Nat) (s : State) : (setBrightness d s).resp = s.resp := rfl
@[simp] theorem setBrightness_fb (d : Nat) (s : State) : (setBrightness d s).fb = s.fb := rfl
@[simp] theorem setBrightness_trace (d : Nat) (s : State) : (setBrightness d s).trace = s.trace := rfl
@[simp] theorem setBrightness_port (d : Nat) (s : State) : (setBrightness d s).port = s.port := rfl
@[simp] theorem setBrightness_turns (d : Nat) (s : State) : (setBrightness d s).turns = s.turns := rfl
@[simp] theorem setBrightness_pinAnswers (d : Nat) (s : State) : (setBrightness d s).pinAnswers = s.pinAnswers := rfl
@[simp] theorem setBrightness_draws (d : Nat) (s : State) : (setBrightness d s).draws = s.draws := rfl

@[simp] theorem swap_mode (n old : BufId) (s : State) : (swap n old s).mode = s.mode := rfl
@[simp] theorem swap_bitDepth (n old : BufId) (s : State) : (swap n old s).bitDepth = s.bitDepth := rfl
@[simp] theorem swap_brightnessStep (n old : BufId) (s : State) : (swap n old s).brightnessStep = s.brightnessStep := rfl
@[simp] theorem swap_brightnessCount (n old : BufId) (s : State) : (swap n old s).brightnessCount = s.brightnessCount := rfl
@[simp] theorem swap_seq (n old : BufId) (s : State) : (swap n old s).seq = s.seq := rfl
@[simp] theorem swap_pins (n old : BufId) (s : State) : (swap n old s).pins = s.pins := rfl
@[simp] theorem swap_cOwn (n old : BufId) (s : State) : (swap n old s).cOwn = s.cOwn := rfl
@[simp] theorem swap_rOwn (n old : BufId) (s : State) : (swap n old s).rOwn = some n := rfl
@[simp] theorem swap_toR (n old : BufId) (s : State) : (swap n old s).toR = none := rfl
@[simp] theorem swap_toC (n old : BufId) (s : State) : (swap n old s).toC = some old := rfl
@[simp] theorem swap_resp (n old : BufId) (s : State) : (swap n old s).resp = s.resp := rfl
@[simp] theorem swap_fb (n old : BufId) (s : State) : (swap n old s).fb = s.fb := rfl
@[simp] theorem swap_trace (n old : BufId) (s : State) : (swap n old s).trace = s.trace := rfl
@[simp] theorem swap_port (n old : BufId) (s : State) : (swap n old s).port = s.port := rfl
@[simp] theorem swap_turns (n old : BufId) (s : State) : (swap n old s).turns = s.turns := rfl
@[simp] theorem swap_pinAnswers (n old : BufId) (s : State) : (swap n old s).pinAnswers = s.pinAnswers := rfl
@[simp] theorem swap_draws (n old : BufId) (s : State) : (swap n old s).draws = s.draws := rfl

@[simp] theorem lineWritten_mode (f : Field) (v : FieldVal) (next : Seq) (s : State) : (lineWritten f v next s).mode = s.mode := rfl
@[simp] theorem lineWritten_bitDepth (f : Field) (v : FieldVal) (next : Seq) (s : State) : (lineWritten f v next s).bitDepth = s.bitDepth := rfl
@[simp] theorem lineWritten_brightnessStep (f : Field) (v : FieldVal) (next : Seq) (s : State) : (lineWritten f v next s).brightnessStep = s.brightnessStep := rfl
@[simp] theorem lineWritten_brightnessCount (f : Field) (v : FieldVal) (next : Seq) (s : State) : (lineWritten f v next s).brightnessCount = s.brightnessCount := rfl
@[simp] theorem lineWritten_seq (f : Field) (v : FieldVal) (next : Seq) (s : State) : (lineWritten f v next s).seq = next := rfl
@[simp] theorem lineWritten_pins (f : Field) (v : FieldVal) (next : Seq) (s : State) : (lineWritten f v next s).pins = setField f v s.pins := rfl
@[simp] theorem lineWritten_cOwn (f : Field) (v : FieldVal) (next : Seq) (s : State) : (lineWritten f v next s).cOwn = s.cOwn := rfl
@[simp] theorem lineWritten_rOwn (f : Field) (v : FieldVal) (next : Seq) (s : State) : (lineWritten f v next s).rOwn = s.rOwn := rfl
@[simp] theorem lineWritten_toR (f : Field) (v : FieldVal) (next : Seq) (s : State) : (lineWritten f v next s).toR = s.toR := rfl
@[simp] theorem lineWritten_toC (f : Field) (v : FieldVal) (next : Seq) (s : State) : (lineWritten f v next s).toC = s.toC := rfl
@[simp] theorem lineWritten_resp (f : Field) (v : FieldVal) (next : Seq) (s : State) : (lineWritten f v next s).resp = s.resp := rfl
@[simp] theorem lineWritten_fb (f : Field) (v : FieldVal) (next : Seq) (s : State) : (lineWritten f v next s).fb = s.fb := rfl
@[simp] theorem lineWritten_trace (f : Field) (v : FieldVal) (next : Seq) (s : State) : (lineWritten f v next s).trace = s.trace ++ [⟨f, setField f v s.pins⟩] := rfl
@[simp] theorem lineWritten_port (f : Field) (v : FieldVal) (next : Seq) (s : State) : (lineWritten f v next s).port = s.port := rfl
@[simp] theorem lineWritten_turns (f : Field) (v : FieldVal) (next : Seq) (s : State) : (lineWritten f v next s).turns = s.turns := rfl
@[simp] theorem lineWritten_pinAnswers (f : Field) (v : FieldVal) (next : Seq) (s : State) : (lineWritten f v next s).pinAnswers = s.pinAnswers := rfl
@[simp] theorem lineWritten_draws (f : Field) (v : FieldVal) (next : Seq) (s : State) : (lineWritten f v next s).draws = s.draws := rfl

@[simp] theorem raisePinError_mode (f : Field) (v : FieldVal) (s : State) : (raisePinError f v s).mode = .halted := rfl
@[simp] theorem raisePinError_bitDepth (f : Field) (v : FieldVal) (s : State) : (raisePinError f v s).bitDepth = s.bitDepth := rfl
@[simp] theorem raisePinError_brightnessStep (f : Field) (v : FieldVal) (s : State) : (raisePinError f v s).brightnessStep = s.brightnessStep := rfl
@[simp] theorem raisePinError_brightnessCount (f : Field) (v : FieldVal) (s : State) : (raisePinError f v s).brightnessCount = s.brightnessCount := rfl
@[simp] theorem raisePinError_seq (f : Field) (v : FieldVal) (s : State) : (raisePinError f v s).seq = s.seq := rfl
@[simp] theorem raisePinError_pins (f : Field) (v : FieldVal) (s : State) : (raisePinError f v s).pins = setField f v s.pins := rfl
@[simp] theorem raisePinError_cOwn (f : Field) (v : FieldVal) (s : State) : (raisePinError f v s).cOwn = s.cOwn := rfl
@[simp] theorem raisePinError_rOwn (f : Field) (v : FieldVal) (s : State) : (raisePinError f v s).rOwn = s.rOwn := rfl
@[simp] theorem raisePinError_toR (f : Field) (v : FieldVal) (s : State) : (raisePinError f v s).toR = s.toR := rfl
@[simp] theorem raisePinError_toC (f : Field) (v : FieldVal) (s : State) : (raisePinError f v s).toC = s.toC := rfl
@[simp] theorem raisePinError_resp (f : Field) (v : FieldVal) (s : State) : (raisePinError f v s).resp = s.resp := rfl
@[simp] theorem raisePinError_fb (f : Field) (v : FieldVal) (s : State) : (raisePinError f v s).fb = s.fb := rfl
@[simp] theorem raisePinError_trace (f : Field) (v : FieldVal) (s : State) : (raisePinError f v s).trace = s.trace := rfl
@[simp] theorem raisePinError_port (f : Field) (v : FieldVal) (s : State) : (raisePinError f v s).port = s.port := rfl
@[simp] theorem raisePinError_turns (f : Field) (v : FieldVal) (s : State) : (raisePinError f v s).turns = s.turns := rfl
@[simp] theorem raisePinError_pinAnswers (f : Field) (v : FieldVal) (s : State) : (raisePinError f v s).pinAnswers = s.pinAnswers := rfl
@[simp] theorem raisePinError_draws (f : Field) (v : FieldVal) (s : State) : (raisePinError f v s).draws = s.draws := rfl

@[simp] theorem dropAnswer_mode (s : State) : (dropAnswer s).mode = s.mode := by
  unfold dropAnswer; split <;> simp_all
@[simp] theorem dropAnswer_bitDepth (s : State) : (dropAnswer s).bitDepth = s.bitDepth := by
  unfold dropAnswer; split <;> simp_all
@[simp] theorem dropAnswer_brightnessStep (s : State) : (dropAnswer s).brightnessStep = s.brightnessStep := by
  unfold dropAnswer; split <;> simp_all
@[simp] theorem dropAnswer_brightnessCount (s : State) : (dropAnswer s).brightnessCount = s.brightnessCount := by
  unfold dropAnswer; split <;> simp_all
@[simp] theorem dropAnswer_seq (s : State) : (dropAnswer s).seq = s.seq := by
  unfold dropAnswer; split <;> simp_all
@[simp] theorem dropAnswer_pins (s : State) : (dropAnswer s).pins = s.pins := by
  unfold dropAnswer; split <;> simp_all
@[simp] theorem dropAnswer_cOwn (s : State) : (dropAnswer s).cOwn = s.cOwn := by
  unfold dropAnswer; split <;> simp_all
@[simp] theorem dropAnswer_rOwn (s : State) : (dropAnswer s).rOwn = s.rOwn := by
  unfold dropAnswer; split <;> simp_all
@[simp] theorem dropAnswer_toR (s : State) : (dropAnswer s).toR = s.toR := by
  unfold dropAnswer; split <;> simp_all
@[simp] theorem dropAnswer_toC (s : State) : (dropAnswer s).toC = s.toC := by
  unfold dropAnswer; split <;> simp_all
@[simp] theorem dropAnswer_resp (s : State) : (dropAnswer s).resp = s.resp := by
  unfold dropAnswer; split <;> simp_all
@[simp] theorem dropAnswer_fb (s : State) : (dropAnswer s).fb = s.fb := by
  unfold dropAnswer; split <;> simp_all
@[simp] theorem dropAnswer_trace (s : State) : (dropAnswer s).trace = s.trace := by
  unfold dropAnswer; split <;> simp_all
@[simp] theorem dropAnswer_port (s : State) : (dropAnswer s).port = s.port := by
  unfold dropAnswer; split <;> simp_all
@[simp] theorem dropAnswer_turns (s : State) : (dropAnswer s).turns = s.turns := by
  unfold dropAnswer; split <;> simp_all
@[simp] theorem dropAnswer_pinAnswers (s : State) : (dropAnswer s).pinAnswers = s.pinAnswers.tail := by
  unfold dropAnswer; split <;> simp_all

@[simp] theorem dropTurn_mode (s : State) : (dropTurn s).mode = s.mode := by
  unfold dropTurn; split <;> simp_all
@[simp] theorem dropTurn_bitDepth (s : State) : (dropTurn s).bitDepth = s.bitDepth := by
  unfold dropTurn; split <;> simp_all
@[simp] theorem dropTurn_brightnessStep (s : State) : (dropTurn s).brightnessStep = s.brightnessStep := by
  unfold dropTurn; split <;> simp_all
@[simp] theorem dropTurn_brightnessCount (s : State) : (dropTurn s).brightnessCount = s.brightnessCount := by
  unfold dropTurn; split <;> simp_all
@[simp] theorem dropTurn_seq (s : State) : (dropTurn s).seq = s.seq := by
  unfold dropTurn; split <;> simp_all
@[simp] theorem dropTurn_pins (s : State) : (dropTurn s).pins = s.pins := by
  unfold dropTurn; split <;> simp_all
@[simp] theorem dropTurn_cOwn (s : State) : (dropTurn s).cOwn = s.cOwn := by
  unfold dropTurn; split <;> simp_all
@[simp] theorem dropTurn_rOwn (s : State) : (dropTurn s).rOwn = s.rOwn := by
  unfold dropTurn; split <;> simp_all
@[simp] theorem dropTurn_toR (s : State) : (dropTurn s).toR = s.toR := by
  unfold dropTurn; split <;> simp_all
@[simp] theorem dropTurn_toC (s : State) : (dropTurn s).toC = s.toC := by
  unfold dropTurn; split <;> simp_all
@[simp] theorem dropTurn_resp (s : State) : (dropTurn s).resp = s.resp := by
  unfold dropTurn; split <;> simp_all
@[simp] theorem dropTurn_fb (s : State) : (dropTurn s).fb = s.fb := by
  unfold dropTurn; split <;> simp_all
@[simp] theorem dropTurn_trace (s : State) : (dropTurn s).trace = s.trace := by
  unfold dropTurn; split <;> simp_all
@[simp] theorem dropTurn_port (s : State) : (dropTurn s).port = s.port := by
  unfold dropTurn; split <;> simp_all
@[simp] theorem dropTurn_turns (s : State) : (dropTurn s).turns = s.turns.tail := by
  unfold dropTurn; split <;> simp_all
@[simp] theorem dropTurn_pinAnswers (s : State) : (dropTurn s).pinAnswers = s.pinAnswers := by
  unfold dropTurn; split <;> simp_all

@[simp] theorem pinWrite_bitDepth (f : Field) (v : FieldVal) (next : Seq) (s : State) : (pinWrite f v next s).bitDepth = s.bitDepth := by
  unfold pinWrite; split <;> simp
@[simp] theorem pinWrite_brightnessStep (f : Field) (v : FieldVal) (next : Seq) (s : State) : (pinWrite f v next s).brightnessStep = s.brightnessStep := by
  unfold pinWrite; split <;> simp
@[simp] theorem pinWrite_brightnessCount (f : Field) (v : FieldVal) (next : Seq) (s : State) : (pinWrite f v next s).brightnessCount = s.brightnessCount := by
  unfold pinWrite; split <;> simp
@[simp] theorem pinWrite_cOwn (f : Field) (v : FieldVal) (next : Seq) (s : State) : (pinWrite f v next s).cOwn = s.cOwn := by
  unfold pinWrite; split <;> simp
@[simp] theorem pinWrite_rOwn (f : Field) (v : FieldVal) (next : Seq) (s : State) : (pinWrite f v next s).rOwn = s.rOwn := by
  unfold pinWrite; split <;> simp
@[simp] theorem pinWrite_toR (f : Field) (v : FieldVal) (next : Seq) (s : State) : (pinWrite f v next s).toR = s.toR := by
  unfold pinWrite; split <;> simp
@[simp] theorem pinWrite_toC (f : Field) (v : FieldVal) (next : Seq) (s : State) : (pinWrite f v next s).toC = s.toC := by
  unfold pinWrite; split <;> simp
@[simp] theorem pinWrite_resp (f : Field) (v : FieldVal) (next : Seq) (s : State) : (pinWrite f v next s).resp = s.resp := by
  unfold pinWrite; split <;> simp
@[simp] theorem pinWrite_fb (f : Field) (v : FieldVal) (next : Seq) (s : State) : (pinWrite f v next s).fb = s.fb := by
  unfold pinWrite; split <;> simp
@[simp] theorem pinWrite_port (f : Field) (v : FieldVal) (next : Seq) (s : State) : (pinWrite f v next s).port = s.port := by
  unfold pinWrite; split <;> simp
@[simp] theorem pinWrite_turns (f : Field) (v : FieldVal) (next : Seq) (s : State) : (pinWrite f v next s).turns = s.turns := by
  unfold pinWrite; split <;> simp
@[simp] theorem pinWrite_pinAnswers (f : Field) (v : FieldVal) (next : Seq) (s : State) : (pinWrite f v next s).pinAnswers = s.pinAnswers.tail := by
  unfold pinWrite; split <;> simp

@[simp] theorem lineMicroOp_bitDepth (p : Phase) (f : Field) (v : FieldVal) (next : Seq) (s : State) : (lineMicroOp p f v next s).bitDepth = s.bitDepth := by
  unfold lineMicroOp; split <;> simp
@[simp] theorem lineMicroOp_brightnessStep (p : Phase) (f : Field) (v : FieldVal) (next : Seq) (s : State) : (lineMicroOp p f v next s).brightnessStep = s.brightnessStep := by
  unfold lineMicroOp; split <;> simp
@[simp] theorem lineMicroOp_brightnessCount (p : Phase) (f : Field) (v : FieldVal) (next : Seq) (s : State) : (lineMicroOp p f v next s).brightnessCount = s.brightnessCount := by
  unfold lineMicroOp; split <;> simp
@[simp] theorem lineMicroOp_cOwn (p : Phase) (f : Field) (v : FieldVal) (next : Seq) (s : State) : (lineMicroOp p f v next s).cOwn = s.cOwn := by
  unfold lineMicroOp; split <;> simp
@[simp] theorem lineMicroOp_rOwn (p : Phase) (f : Field) (v : FieldVal) (next : Seq) (s : State) : (lineMicroOp p f v next s).rOwn = s.rOwn := by
  unfold lineMicroOp; split <;> simp
@[simp] theorem lineMicroOp_toR (p : Phase) (f : Field) (v : FieldVal) (next : Seq) (s : State) : (lineMicroOp p f v next s).toR = s.toR := by
  unfold lineMicroOp; split <;> simp
@[simp] theorem lineMicroOp_toC (p : Phase) (f : Field) (v : FieldVal) (next : Seq) (s : State) : (lineMicroOp p f v next s).toC = s.toC := by
  unfold lineMicroOp; split <;> simp
@[simp] theorem lineMicroOp_resp (p : Phase) (f : Field) (v : FieldVal) (next : Seq) (s : State) : (lineMicroOp p f v next s).resp = s.resp := by
  unfold lineMicroOp; split <;> simp
@[simp] theorem lineMicroOp_fb (p : Phase) (f : Field) (v : FieldVal) (next : Seq) (s : State) : (lineMicroOp p f v next s).fb = s.fb := by
  unfold lineMicroOp; split <;> simp
@[simp] theorem lineMicroOp_port (p : Phase) (f : Field) (v : FieldVal) (next : Seq) (s : State) : (lineMicroOp p f v next s).port = s.port := by
  unfold lineMicroOp; split <;> simp
@[simp] theorem lineMicroOp_turns (p : Phase) (f : Field) (v : FieldVal) (next : Seq) (s : State) : (lineMicroOp p f v next s).turns = s.turns := by
  unfold lineMicroOp; split <;> simp

@[simp] theorem placeCommand_mode (w : Cmd) (s : State) : (placeCommand w s).mode = s.mode := rfl
@[simp] theorem placeCommand_bitDepth (w : Cmd) (s : State) : (placeCommand w s).bitDepth = s.bitDepth := rfl
@[simp] theorem placeCommand_brightnessStep (w : Cmd) (s : State) : (placeCommand w s).brightnessStep = s.brightnessStep := rfl
@[simp] theorem placeCommand_brightnessCount (w : Cmd) (s : State) : (placeCommand w s).brightnessCount = s.brightnessCount := rfl
@[simp] theorem placeCommand_seq (w : Cmd) (s : State) : (placeCommand w s).seq = s.seq := rfl
@[simp] theorem placeCommand_pins (w : Cmd) (s : State) : (placeCommand w s).pins = s.pins := rfl
@[simp] theorem placeCommand_cOwn (w : Cmd) (s : State) : (placeCommand w s).cOwn = s.cOwn := rfl
@[simp] theorem placeCommand_rOwn (w : Cmd) (s : State) : (placeCommand w s).rOwn = s.rOwn := rfl
@[simp] theorem placeCommand_toR (w : Cmd) (s : State) : (placeCommand w s).toR = s.toR := rfl
@[simp] theorem placeCommand_toC (w : Cmd) (s : State) : (placeCommand w s).toC = s.toC := rfl
@[simp] theorem placeCommand_resp (w : Cmd) (s : State) : (placeCommand w s).resp = s.resp := rfl
@[simp] theorem placeCommand_fb (w : Cmd) (s : State) : (placeCommand w s).fb = s.fb := rfl
@[simp] theorem placeCommand_trace (w : Cmd) (s : State) : (placeCommand w s).trace = s.trace := rfl
@[simp] theorem placeCommand_port (w : Cmd) (s : State) : (placeCommand w s).port = w :: s.port := rfl
@[simp] theorem placeCommand_turns (w : Cmd) (s : State) : (placeCommand w s).turns = .compositor :: s.turns := rfl
@[simp] theorem placeCommand_pinAnswers (w : Cmd) (s : State) : (placeCommand w s).pinAnswers = s.pinAnswers := rfl
@[simp] theorem placeCommand_draws (w : Cmd) (s : State) : (placeCommand w s).draws = s.draws := rfl

@[simp] theorem placePhase_mode (p : Phase) (s : State) : (placePhase p s).mode = .run := rfl
@[simp] theorem placePhase_bitDepth (p : Phase) (s : State) : (placePhase p s).bitDepth = s.bitDepth := rfl
@[simp] theorem placePhase_brightnessStep (p : Phase) (s : State) : (placePhase p s).brightnessStep = s.brightnessStep := rfl
@[simp] theorem placePhase_brightnessCount (p : Phase) (s : State) : (placePhase p s).brightnessCount = s.brightnessCount := rfl
@[simp] theorem placePhase_seq (p : Phase) (s : State) : (placePhase p s).seq = s.seq.inPhase p := rfl
@[simp] theorem placePhase_pins (p : Phase) (s : State) : (placePhase p s).pins = s.pins := rfl
@[simp] theorem placePhase_cOwn (p : Phase) (s : State) : (placePhase p s).cOwn = s.cOwn := rfl
@[simp] theorem placePhase_rOwn (p : Phase) (s : State) : (placePhase p s).rOwn = s.rOwn := rfl
@[simp] theorem placePhase_toR (p : Phase) (s : State) : (placePhase p s).toR = s.toR := rfl
@[simp] theorem placePhase_toC (p : Phase) (s : State) : (placePhase p s).toC = s.toC := rfl
@[simp] theorem placePhase_resp (p : Phase) (s : State) : (placePhase p s).resp = s.resp := rfl
@[simp] theorem placePhase_fb (p : Phase) (s : State) : (placePhase p s).fb = s.fb := rfl
@[simp] theorem placePhase_trace (p : Phase) (s : State) : (placePhase p s).trace = s.trace := rfl
@[simp] theorem placePhase_port (p : Phase) (s : State) : (placePhase p s).port = s.port := rfl
@[simp] theorem placePhase_turns (p : Phase) (s : State) : (placePhase p s).turns = .refresher :: s.turns := rfl
@[simp] theorem placePhase_pinAnswers (p : Phase) (s : State) : (placePhase p s).pinAnswers = s.pinAnswers := rfl
@[simp] theorem placePhase_draws (p : Phase) (s : State) : (placePhase p s).draws = s.draws := rfl

end Sys2Proof.Machine
end

