-- ==== Sys2Proof/Laws/Ops.lean ====
section
/-! SUPPORT. What each shared operation can do, said once. -/

namespace Sys2Proof.Machine

theorem enabled_iff {p : Phase} {s : State} : enabled p s = true ↔ s.mode = .run ∧ s.seq.phase = p := by
  simp [enabled]

@[simp] theorem enabled_dropAnswer (p : Phase) (s : State) : enabled p (dropAnswer s) = enabled p s := by
  simp [enabled]

/-- A line write that the oracle lets succeed. -/
theorem pinWrite_ok {s : State} (h : pinAnswer s = .ok) (f : Field) (v : FieldVal) (next : Seq) :
    pinWrite f v next s = lineWritten f v next (dropAnswer s) := by
  simp [pinWrite, h]

/-- A line write that the oracle lets fail. -/
theorem pinWrite_failed {s : State} {left : FieldVal} (h : pinAnswer s = .failed left) (f : Field) (v : FieldVal)
    (next : Seq) : pinWrite f v next s = raisePinError f left (dropAnswer s) := by
  simp [pinWrite, h]

/-- Everything a line write can do: it succeeds, or PinError is entered. -/
theorem pinWrite_cases (f : Field) (v : FieldVal) (next : Seq) (s : State) :
    (pinAnswer s = .ok ∧ pinWrite f v next s = lineWritten f v next (dropAnswer s)) ∨
      ∃ left, pinAnswer s = .failed left ∧ pinWrite f v next s = raisePinError f left (dropAnswer s) := by
  cases h : pinAnswer s with
  | ok => exact .inl ⟨rfl, pinWrite_ok h f v next⟩
  | failed left => exact .inr ⟨left, rfl, pinWrite_failed h f v next⟩

/-- Everything a line-writing micro-operation can do: nothing where it has no step, the write, or PinError entry. -/
theorem lineMicroOp_cases (p : Phase) (f : Field) (v : FieldVal) (next : Seq) (s : State) :
    (¬(s.mode = .run ∧ s.seq.phase = p) ∧ lineMicroOp p f v next s = s) ∨
      (s.mode = .run ∧ s.seq.phase = p ∧ pinAnswer s = .ok ∧
        lineMicroOp p f v next s = lineWritten f v next (dropAnswer s)) ∨
      ∃ left, s.mode = .run ∧ s.seq.phase = p ∧ pinAnswer s = .failed left ∧
        lineMicroOp p f v next s = raisePinError f left (dropAnswer s) := by
  unfold lineMicroOp
  by_cases h : enabled p s = true
  · obtain ⟨hm, hp⟩ := enabled_iff.1 h
    rw [if_pos h]
    obtain ⟨ha, he⟩ | ⟨left, ha, he⟩ := pinWrite_cases f v next s
    · exact .inr (.inl ⟨hm, hp, ha, he⟩)
    · exact .inr (.inr ⟨left, hm, hp, ha, he⟩)
  · rw [if_neg h]
    exact .inl ⟨fun hc => h (enabled_iff.2 hc), rfl⟩

/-- An enabled micro-operation whose line write succeeds. -/
theorem lineMicroOp_ok {p : Phase} {s : State} (hm : s.mode = .run) (hp : s.seq.phase = p) (ha : pinAnswer s = .ok)
    (f : Field) (v : FieldVal) (next : Seq) :
    lineMicroOp p f v next s = lineWritten f v next (dropAnswer s) := by
  rw [lineMicroOp, if_pos (enabled_iff.2 ⟨hm, hp⟩), pinWrite_ok ha]

/-- An enabled micro-operation whose line write fails. -/
theorem lineMicroOp_failed {p : Phase} {s : State} {left : FieldVal} (hm : s.mode = .run) (hp : s.seq.phase = p)
    (ha : pinAnswer s = .failed left) (f : Field) (v : FieldVal) (next : Seq) :
    lineMicroOp p f v next s = raisePinError f left (dropAnswer s) := by
  rw [lineMicroOp, if_pos (enabled_iff.2 ⟨hm, hp⟩), pinWrite_failed ha]

/-- The oracle's answer where one is listed. -/
theorem pinAnswer_listed {s : State} {a : PinAnswer} {rest : List PinAnswer} (h : s.pinAnswers = a :: rest) :
    pinAnswer s = a := by
  simp [pinAnswer, h]

/-- Taking a listed answer draws nothing. -/
theorem dropAnswer_listed {s : State} {a : PinAnswer} {rest : List PinAnswer} (h : s.pinAnswers = a :: rest) :
    dropAnswer s = { s with pinAnswers := rest } := by
  simp [dropAnswer, h]

end Sys2Proof.Machine
end

