-- ==== Sys2Proof/Laws/Step.lean ====
section
/-! SUPPORT. What one step can do, said once, and what each meaning can do where it answers a next state. -/

namespace Sys2Proof.Machine

/-- Where a turn is listed, it is the next one. -/
theorem nextTurn_listed {s : State} {t : Turn} {rest : List Turn} (h : s.turns = t :: rest) : nextTurn s = t := by
  simp [nextTurn, h]

/-- Taking a listed turn draws nothing. -/
theorem dropTurn_listed {s : State} {t : Turn} {rest : List Turn} (h : s.turns = t :: rest) :
    dropTurn s = { s with turns := rest } := by
  simp [dropTurn, h]

/-- Decoding a phase code gives the micro-operation of the phase. -/
theorem decodeSeq4_code (p : Phase) : decodeSeq4 p.code = .ok p.instr := by cases p <;> rfl

/-- Everything one step can do: nothing but the turn, the refusal of an illegal word, a command of the Compositor,
or the selected micro-operation of the Refresher. -/
theorem step_cases (s : State) :
    step s = .next (dropTurn s) ∨
      (nextTurn s = .compositor ∧ (∃ w rest why, s.port = w :: rest ∧ decodeC96 w = .error why) ∧
        step s = .next (refuseIllegal (dropTurn s))) ∨
      (nextTurn s = .compositor ∧ ∃ w rest i, s.port = w :: rest ∧ decodeC96 w = .ok i ∧
        step s = exec i (dropTurn s)) ∨
      (nextTurn s = .refresher ∧ s.mode = .run ∧ step s = exec s.seq.phase.instr (dropTurn s)) := by
  unfold step
  cases ht : nextTurn s with
  | nobody => exact .inl rfl
  | compositor =>
    simp only [fetch, fetchCommand, dropTurn_port]
    cases hp : s.port with
    | nil => exact .inl rfl
    | cons w rest =>
      cases hd : decodeC96 w with
      | error why => exact .inr (.inl ⟨trivial, ⟨w, rest, why, rfl, hd⟩, by simp [hd]⟩)
      | ok i => exact .inr (.inr (.inl ⟨trivial, w, rest, i, rfl, hd, by simp [hd]⟩))
  | refresher =>
    simp only [fetch, fetchMicroOp, dropTurn_mode, dropTurn_seq]
    by_cases hm : s.mode = .run
    · exact .inr (.inr (.inr ⟨trivial, hm, by simp [hm]⟩))
    · exact .inl (by simp [hm])

/-- A decoded command word is one of the seven commands. -/
theorem decodeC96_command {w : Cmd} {i : Instr} (h : decodeC96 w = .ok i) :
    (∃ d, i = .configure d) ∨ (∃ x y c, i = .set x y c) ∨ (∃ x y w' h' c, i = .fill x y w' h' c) ∨ i = .clear ∨
      i = .getbuf ∨ i = .publish ∨ i = .acquire := by
  unfold decodeC96 whenZero at h
  repeat' split at h
  all_goals first | (cases h; done) | (injection h with h; subst h; simp)

/-! ## The meanings -/

/-- Everything CONFIGURE can do. -/
theorem execConfigure_cases (d : Nat) (s : State) :
    (s.mode ≠ .unconf ∧ execConfigure d s = .next (refuseBadState s)) ∨
      (s.mode = .unconf ∧ 1 ≤ d ∧ d ≤ 8 ∧ execConfigure d s = .next (respond .ok 0 (setBrightness d s))) ∨
      (s.mode = .unconf ∧ ¬(1 ≤ d ∧ d ≤ 8) ∧ execConfigure d s = .next (raiseConfigError s)) := by
  unfold execConfigure
  by_cases hm : s.mode = .unconf
  · by_cases hd : 1 ≤ d ∧ d ≤ 8
    · exact .inr (.inl ⟨hm, hd.1, hd.2, by simp [hm, hd]⟩)
    · exact .inr (.inr ⟨hm, hd, by simp [hm, hd]⟩)
  · exact .inl ⟨hm, by simp [hm]⟩

/-- SET with a buffer. -/
theorem execSet_owned {s : State} {b : BufId} (h : s.cOwn = some b) (x y : Int) (c : Color) :
    execSet x y c s = .next (respond .ok 0
      (if inBounds x y then { s with fb := fbWrite b y.toNat x.toNat (storedPixel c) s.fb } else s)) := by
  unfold execSet; split
  · rename_i hn; rw [h] at hn; cases hn
  · rename_i hb; rw [h] at hb; cases hb; rfl

/-- FILL with a buffer. -/
theorem execFill_owned {s : State} {b : BufId} (h : s.cOwn = some b) (x y : Int) (w' h' : Nat) (c : Color) :
    execFill x y w' h' c s = .next (respond .ok 0
      { s with fb := fbWriteWhere b (inRect x y w' h') (storedPixel c) gridCells s.fb }) := by
  unfold execFill; split
  · rename_i hn; rw [h] at hn; cases hn
  · rename_i hb; rw [h] at hb; cases hb; rfl

/-- CLEAR with a buffer. -/
theorem execClear_owned {s : State} {b : BufId} (h : s.cOwn = some b) :
    execClear s = .next (respond .ok 0 { s with fb := fbClear b s.fb }) := by
  unfold execClear; split
  · rename_i hn; rw [h] at hn; cases hn
  · rename_i hb; rw [h] at hb; cases hb; rfl

/-- GETBUF with a buffer. -/
theorem execGetbuf_owned {s : State} {b : BufId} (h : s.cOwn = some b) :
    execGetbuf s = .next (respond .ok (bufData b) s) := by
  unfold execGetbuf; split
  · rename_i hn; rw [h] at hn; cases hn
  · rename_i hb; rw [h] at hb; cases hb; rfl

/-- PUBLISH with a buffer. -/
theorem execPublish_owned {s : State} {b : BufId} (h : s.cOwn = some b) :
    execPublish s = .next (respond .ok 0 { s with toR := some b, cOwn := none }) := by
  unfold execPublish; split
  · rename_i hn; rw [h] at hn; cases hn
  · rename_i hb; rw [h] at hb; cases hb; rfl

section Unowned

variable {s : State} (h : s.cOwn = none)
include h

theorem execSet_unowned (x y : Int) (c : Color) : execSet x y c s = .next (refuseOwnership s) := by
  simp only [execSet, h]

theorem execFill_unowned (x y : Int) (w' h' : Nat) (c : Color) :
    execFill x y w' h' c s = .next (refuseOwnership s) := by
  simp only [execFill, h]

theorem execClear_unowned : execClear s = .next (refuseOwnership s) := by simp only [execClear, h]

theorem execGetbuf_unowned : execGetbuf s = .next (refuseOwnership s) := by simp only [execGetbuf, h]

theorem execPublish_unowned : execPublish s = .next (refuseOwnership s) := by simp only [execPublish, h]

end Unowned

/-- Everything SHDATA can do. -/
theorem execShdata_cases (s : State) :
    (¬(s.mode = .run ∧ s.seq.phase = .shdata) ∧ execShdata s = .next s) ∨
      (s.rOwn = none ∧ execShdata s = .fault .refresherOwnsNoBuffer) ∨
      ∃ b, s.mode = .run ∧ s.seq.phase = .shdata ∧ s.rOwn = some b ∧
        execShdata s =
          .next (pinWrite .rgb (lanes s.fb b s.seq.row.toNat s.seq.col.toNat (thresh s)) (s.seq.inPhase .shclkh) s) := by
  unfold execShdata
  by_cases h : enabled .shdata s = true
  · obtain ⟨hm, hp⟩ := enabled_iff.1 h
    rw [if_pos h]
    cases hr : s.rOwn with
    | none => exact .inr (.inl ⟨rfl, rfl⟩)
    | some b => exact .inr (.inr ⟨b, hm, hp, rfl, rfl⟩)
  · rw [if_neg h]
    exact .inl ⟨fun hc => h (enabled_iff.2 hc), rfl⟩

/-- Everything ACQUIRE can do. -/
theorem execAcquire_cases (s : State) :
    (s.cOwn ≠ none ∧ execAcquire s = .next (refuseOwnership s)) ∨
      (s.cOwn = none ∧ s.toC = none ∧ execAcquire s = .next s) ∨
      ∃ b, s.cOwn = none ∧ s.toC = some b ∧
        execAcquire s = .next (respond .ok (bufData b) { s with toC := none, cOwn := some b }) := by
  unfold execAcquire
  cases hc : s.cOwn with
  | some a => exact .inl ⟨by simp, rfl⟩
  | none =>
    cases ht : s.toC with
    | none => exact .inr (.inl ⟨rfl, rfl, rfl⟩)
    | some b => exact .inr (.inr ⟨b, rfl, rfl, rfl⟩)

/-- Everything WAITF can do. -/
theorem execWaitf_cases (s : State) :
    (¬(s.mode = .run ∧ s.seq.phase = .waitf ∧ s.toR ≠ none) ∧ execWaitf s = .next s) ∨
      (s.rOwn = none ∧ execWaitf s = .fault .refresherOwnsNoBuffer) ∨
      ∃ n old, s.mode = .run ∧ s.seq.phase = .waitf ∧ s.toR = some n ∧ s.rOwn = some old ∧
        execWaitf s = .next { swap n old s with seq := cycleStart } := by
  unfold execWaitf
  by_cases h : enabled .waitf s = true
  · obtain ⟨hm, hp⟩ := enabled_iff.1 h
    rw [if_pos h]
    cases ht : s.toR with
    | none => exact .inl ⟨by simp, rfl⟩
    | some n =>
      cases hr : s.rOwn with
      | none => exact .inr (.inl ⟨rfl, rfl⟩)
      | some old => exact .inr (.inr ⟨n, old, hm, hp, rfl, rfl, rfl⟩)
  · rw [if_neg h]
    exact .inl ⟨fun hc => h (enabled_iff.2 ⟨hc.1, hc.2.1⟩), rfl⟩

/-- Everything POLL can do. -/
theorem execPoll_cases (s : State) :
    (¬(s.mode = .run ∧ s.seq.phase = .poll) ∧ execPoll s = .next s) ∨
      (s.mode = .run ∧ s.seq.phase = .poll ∧ s.toR = none ∧ execPoll s = .next { s with seq := cycleStart }) ∨
      (s.rOwn = none ∧ execPoll s = .fault .refresherOwnsNoBuffer) ∨
      ∃ n old, s.mode = .run ∧ s.seq.phase = .poll ∧ s.toR = some n ∧ s.rOwn = some old ∧
        execPoll s = .next { swap n old s with seq := cycleStart } := by
  unfold execPoll
  by_cases h : enabled .poll s = true
  · obtain ⟨hm, hp⟩ := enabled_iff.1 h
    rw [if_pos h]
    cases ht : s.toR with
    | none => exact .inr (.inl ⟨hm, hp, rfl, rfl⟩)
    | some n =>
      cases hr : s.rOwn with
      | none => exact .inr (.inr (.inl ⟨rfl, rfl⟩))
      | some old => exact .inr (.inr (.inr ⟨n, old, hm, hp, rfl, rfl, rfl⟩))
  · rw [if_neg h]
    exact .inl ⟨fun hc => h (enabled_iff.2 hc), rfl⟩

end Sys2Proof.Machine
end

