-- ==== Sys2Proof/Laws/Moves.lean ====
section
/-! SUPPORT. Every next state that a command, a micro-operation and a step can give, said once. -/

namespace Sys2Proof.Machine

/-- What drawing into buffer `b` does to the memory: the canonical form stays, and no byte outside `b` changes. -/
def DrawnIn (b : BufId) (m m' : Memory) : Prop :=
  Memory.wf m = true → Memory.wf m' = true ∧ ∀ a, inBuffer b a = false → Memory.read m' a = Memory.read m a

/-- Writing a pixel of the grid changes no byte outside its buffer. -/
theorem drawnIn_fbWrite (b : BufId) {y x : Nat} (p : Pixel) (m : Memory) (hy : y < Config.rows) (hx : x < Config.cols) :
    DrawnIn b m (fbWrite b y x p m) := by
  intro hw
  refine ⟨fbWrite_wf b p hy hx hw, fun a ha => read_fbWrite_other b p hy hx hw ?_⟩
  by_contra hc
  have hk : inBuffer b (pixelAddr b y x + (a - pixelAddr b y x)) = true := by
    rw [inBuffer_pixelAddr b b hy hx (by omega)]
    simp
  rw [show pixelAddr b y x + (a - pixelAddr b y x) = a by omega, ha] at hk
  exact absurd hk (by decide)

/-- Filling changes no byte outside its buffer. -/
theorem drawnIn_fbWriteWhere (b : BufId) (inside : Nat → Nat → Bool) (p : Pixel) (m : Memory) :
    DrawnIn b m (fbWriteWhere b inside p gridCells m) := fun hw =>
  ⟨fbWriteWhere_wf b inside p inGrid_gridCells hw,
    fun _ ha => read_fbWriteWhere_outside b inside p inGrid_gridCells hw ha⟩

/-- Clearing changes no byte outside its buffer. -/
theorem drawnIn_fbClear (b : BufId) (m : Memory) : DrawnIn b m (fbClear b m) := fun hw =>
  ⟨fbClear_wf b hw, fun a ha => by rw [read_fbClear, if_neg (by simp [ha])]⟩

/-- The next states of a command. -/
inductive CommandMove (s : State) : State → Prop
  /-- ACQUIRE is held. -/
  | held : s.cOwn = none → s.toC = none → CommandMove s s
  /-- A response and nothing else. -/
  | answer (c : RespCode) (d : BitVec 8) : CommandMove s (respond c d s)
  | configured (d : Nat) : s.mode = .unconf → 1 ≤ d → d ≤ 8 → CommandMove s (respond .ok 0 (setBrightness d s))
  | configError : s.mode = .unconf → CommandMove s (raiseConfigError s)
  | drawn (b : BufId) (m : Memory) : s.cOwn = some b → DrawnIn b s.fb m →
    CommandMove s (respond .ok 0 { s with fb := m })
  | published (b : BufId) : s.cOwn = some b → CommandMove s (respond .ok 0 { s with toR := some b, cOwn := none })
  | acquired (b : BufId) : s.cOwn = none → s.toC = some b →
    CommandMove s (respond .ok (bufData b) { s with toC := none, cOwn := some b })

/-- Every command answers a next state, and one of these. -/
theorem exec_command {w : Cmd} {i : Instr} (hd : decodeC96 w = .ok i) (s : State) :
    ∃ t, exec i s = .next t ∧ CommandMove s t := by
  obtain ⟨d, rfl⟩ | ⟨x, y, c, rfl⟩ | ⟨x, y, w', h', c, rfl⟩ | rfl | rfl | rfl | rfl := decodeC96_command hd
  · obtain ⟨-, h⟩ | ⟨hm, h1, h2, h⟩ | ⟨hm, -, h⟩ := execConfigure_cases d s
    · exact ⟨_, h, .answer ..⟩
    · exact ⟨_, h, .configured d hm h1 h2⟩
    · exact ⟨_, h, .configError hm⟩
  · cases hb : s.cOwn with
    | none => exact ⟨_, execSet_unowned hb x y c, .answer ..⟩
    | some b =>
      refine ⟨_, execSet_owned hb x y c, ?_⟩
      by_cases hin : inBounds x y = true
      · rw [if_pos hin]
        simp only [inBounds, decide_eq_true_eq] at hin
        exact .drawn b _ hb (drawnIn_fbWrite b _ _ (by omega) (by omega))
      · rw [if_neg hin]
        exact .answer ..
  · cases hb : s.cOwn with
    | none => exact ⟨_, execFill_unowned hb x y w' h' c, .answer ..⟩
    | some b => exact ⟨_, execFill_owned hb x y w' h' c, .drawn b _ hb (drawnIn_fbWriteWhere b _ _ _)⟩
  · cases hb : s.cOwn with
    | none => exact ⟨_, execClear_unowned hb, .answer ..⟩
    | some b => exact ⟨_, execClear_owned hb, .drawn b _ hb (drawnIn_fbClear b _)⟩
  · cases hb : s.cOwn with
    | none => exact ⟨_, execGetbuf_unowned hb, .answer ..⟩
    | some b => exact ⟨_, execGetbuf_owned hb, .answer ..⟩
  · cases hb : s.cOwn with
    | none => exact ⟨_, execPublish_unowned hb, .answer ..⟩
    | some b => exact ⟨_, execPublish_owned hb, .published b hb⟩
  · obtain ⟨-, h⟩ | ⟨hc, ht, h⟩ | ⟨b, hc, ht, h⟩ := execAcquire_cases s
    · exact ⟨_, h, .answer ..⟩
    · exact ⟨_, h, .held hc ht⟩
    · exact ⟨_, h, .acquired b hc ht⟩

/-- The line write of the selected micro-operation: its field, its value, and the position after it; none for WAITF,
POLL, and SHDATA without a buffer. -/
def lineMove (s : State) : Option (Field × FieldVal × Seq) :=
  match s.seq.phase with
  | .waitf => none
  | .shdata => s.rOwn.map fun b =>
    (.rgb, lanes s.fb b s.seq.row.toNat s.seq.col.toNat (thresh s), s.seq.inPhase .shclkh)
  | .shclkh => some (.clk, 1, s.seq.inPhase .shclkl)
  | .shclkl => some (.clk, 0, afterClock s.seq)
  | .blank => some (.oe, 1, s.seq.inPhase .latl)
  | .latl => some (.lat, 0, s.seq.inPhase .lath)
  | .lath => some (.lat, 1, s.seq.inPhase .addr)
  | .addr => some (.addr, s.seq.row.setWidth 6, s.seq.inPhase .unblank)
  | .unblank => some (.oe, 0, afterUnblank s.brightnessCount s.seq)
  | .endblank => some (.oe, 1, s.seq.inPhase .poll)
  | .poll => none

/-- The selected micro-operation of a running Refresher is its line write. -/
theorem exec_lineMove {s : State} {f : Field} {v : FieldVal} {next : Seq} (hm : s.mode = .run)
    (h : lineMove s = some (f, v, next)) : exec s.seq.phase.instr s = .next (pinWrite f v next s) := by
  have hl : ∀ p, s.seq.phase = p → lineMicroOp p f v next s = pinWrite f v next s := fun p hp => by
    rw [lineMicroOp, if_pos (enabled_iff.2 ⟨hm, hp⟩)]
  unfold lineMove at h
  cases hp : s.seq.phase <;> simp only [hp] at h
  case waitf => cases h
  case poll => cases h
  case shdata =>
    obtain ⟨b, hb, he⟩ := Option.map_eq_some_iff.1 h
    injection he with h1 he
    injection he with h2 h3
    subst h1 h2 h3
    obtain ⟨hn, -⟩ | ⟨hn, -⟩ | ⟨b', -, -, hb', he⟩ := execShdata_cases s
    · exact absurd ⟨hm, hp⟩ hn
    · rw [hn] at hb; cases hb
    · rw [hb] at hb'; cases hb'; exact he
  all_goals
    injection h with h
    injection h with h1 h
    injection h with h2 h3
    subst h1 h2 h3
    exact congrArg _ (hl _ hp)

/-- The next states of the selected micro-operation. -/
inductive ScanMove (s : State) : State → Prop
  /-- WAITF is held. -/
  | held : s.seq.phase = .waitf → s.toR = none → ScanMove s s
  | written (f : Field) (v : FieldVal) (next : Seq) : lineMove s = some (f, v, next) → pinAnswer s = .ok →
    ScanMove s (lineWritten f v next (dropAnswer s))
  | failed (f : Field) (v : FieldVal) (next : Seq) (left : FieldVal) : lineMove s = some (f, v, next) →
    pinAnswer s = .failed left → ScanMove s (raisePinError f left (dropAnswer s))
  /-- POLL with no frame waiting. -/
  | again : s.seq.phase = .poll → s.toR = none → ScanMove s { s with seq := cycleStart }
  | swapped (n old : BufId) : s.seq.phase = .waitf ∨ s.seq.phase = .poll → s.toR = some n → s.rOwn = some old →
    ScanMove s { swap n old s with seq := cycleStart }

/-- The selected micro-operation of a running Refresher answers one of these next states, or it needs a buffer where
there is none. -/
theorem exec_microOp {s : State} (hm : s.mode = .run) :
    (s.rOwn = none ∧ exec s.seq.phase.instr s = .fault .refresherOwnsNoBuffer) ∨
      ∃ t, exec s.seq.phase.instr s = .next t ∧ ScanMove s t := by
  have hw : ∀ f v next, lineMove s = some (f, v, next) → ∃ t, exec s.seq.phase.instr s = .next t ∧ ScanMove s t := by
    intro f v next hl
    rw [exec_lineMove hm hl]
    obtain ⟨ha, he⟩ | ⟨left, ha, he⟩ := pinWrite_cases f v next s
    · exact ⟨_, rfl, he ▸ .written f v next hl ha⟩
    · exact ⟨_, rfl, he ▸ .failed f v next left hl ha⟩
  cases hl : lineMove s with
  | some q => exact .inr (hw q.1 q.2.1 q.2.2 hl)
  | none =>
    unfold lineMove at hl
    cases hp : s.seq.phase <;> simp only [hp] at hl
    case waitf =>
      obtain ⟨hn, h⟩ | ⟨hr, h⟩ | ⟨n, old, -, -, ht, hr, h⟩ := execWaitf_cases s
      · refine .inr ⟨_, h, .held hp ?_⟩
        by_contra hc
        exact hn ⟨hm, hp, hc⟩
      · exact .inl ⟨hr, h⟩
      · exact .inr ⟨_, h, .swapped n old (.inl hp) ht hr⟩
    case poll =>
      obtain ⟨hn, -⟩ | ⟨-, -, ht, h⟩ | ⟨hr, h⟩ | ⟨n, old, -, -, ht, hr, h⟩ := execPoll_cases s
      · exact absurd ⟨hm, hp⟩ hn
      · exact .inr ⟨_, h, .again hp ht⟩
      · exact .inl ⟨hr, h⟩
      · exact .inr ⟨_, h, .swapped n old (.inr hp) ht hr⟩
    case shdata =>
      have hr := Option.map_eq_none_iff.1 hl
      obtain ⟨hn, -⟩ | ⟨-, h⟩ | ⟨b, -, -, hb, -⟩ := execShdata_cases s
      · exact absurd ⟨hm, hp⟩ hn
      · exact .inl ⟨hr, h⟩
      · rw [hr] at hb; cases hb
    all_goals cases hl

/-- Everything a step can do: it stops for want of the Refresher's buffer, or answers a next state which is the turn
taken, a command's, or the selected micro-operation's. -/
theorem step_moves (s : State) :
    (s.rOwn = none ∧ step s = .fault .refresherOwnsNoBuffer) ∨
      ∃ t, step s = .next t ∧
        (t = dropTurn s ∨ (nextTurn s = .compositor ∧ CommandMove (dropTurn s) t) ∨
          (nextTurn s = .refresher ∧ s.mode = .run ∧ ScanMove (dropTurn s) t)) := by
  obtain h | ⟨hn, -, h⟩ | ⟨hn, w, rest, i, -, hd, h⟩ | ⟨hn, hm, h⟩ := step_cases s
  · exact .inr ⟨_, h, .inl rfl⟩
  · exact .inr ⟨_, h, .inr (.inl ⟨hn, .answer ..⟩)⟩
  · obtain ⟨t, ht, hc⟩ := exec_command hd (dropTurn s)
    exact .inr ⟨t, by rw [h, ht], .inr (.inl ⟨hn, hc⟩)⟩
  · have hm' : (dropTurn s).mode = .run := by simpa using hm
    rw [← dropTurn_seq s] at h
    obtain ⟨hr, he⟩ | ⟨t, ht, hc⟩ := exec_microOp hm'
    · exact .inl ⟨by simpa using hr, by rw [h, he]⟩
    · exact .inr ⟨t, by rw [h, ht], .inr (.inr ⟨hn, hm, hc⟩)⟩

end Sys2Proof.Machine
end

