-- ==== Sys2Proof/Laws/Operands.lean ====
section
/-! SUPPORT. The laws of the operand forms: the bounds test, the rectangle, the gamma table and the six lanes. -/

namespace Sys2Proof.Machine

theorem inBounds_iff (x y : Int) : inBounds x y = true ↔ 0 ≤ x ∧ x < 64 ∧ 0 ≤ y ∧ y < 64 := by
  rw [inBounds, decide_eq_true_eq]
  rfl

theorem inRect_iff (x y : Int) (w h row col : Nat) :
    inRect x y w h row col = true ↔ x ≤ col ∧ (col : Int) < x + w ∧ y ≤ row ∧ (row : Int) < y + h := by
  rw [inRect, decide_eq_true_eq]

/-- The ON predicate as a comparison of numbers. -/
theorem isOn_iff (v t : Byte) : isOn v t = true ↔ t.toNat ≤ v.toNat := by
  rw [isOn, BitVec.ule, decide_eq_true_eq]

@[simp] theorem storedPixel_black : storedPixel ⟨0, 0, 0⟩ = ⟨0, 0, 0⟩ := by
  rw [storedPixel, Config.gamma.zero]

@[simp] theorem storedPixel_white : storedPixel ⟨255, 255, 255⟩ = ⟨255, 255, 255⟩ := by
  rw [storedPixel, Config.gamma.full]

/-- The six lanes, bit by bit (R162). -/
theorem getLsbD_laneBits (top bottom : Pixel) (t : Byte) :
    (laneBits top bottom t).getLsbD 0 = isOn top.r t ∧ (laneBits top bottom t).getLsbD 1 = isOn top.g t ∧
    (laneBits top bottom t).getLsbD 2 = isOn top.b t ∧ (laneBits top bottom t).getLsbD 3 = isOn bottom.r t ∧
    (laneBits top bottom t).getLsbD 4 = isOn bottom.g t ∧ (laneBits top bottom t).getLsbD 5 = isOn bottom.b t := by
  unfold laneBits
  generalize isOn top.r t = a
  generalize isOn top.g t = b
  generalize isOn top.b t = c
  generalize isOn bottom.r t = d
  generalize isOn bottom.g t = e
  generalize isOn bottom.b t = f
  revert a b c d e f
  decide

theorem thresholdNat_le (l s : Nat) : thresholdNat l s ≤ 255 := Nat.min_le_right _ _

end Sys2Proof.Machine
end

