-- ==== Sys2Proof/Laws/PerInstr.lean ====
section
/-! SUPPORT. The per-instruction family SelectsItsRow: the encoding of an instruction selects the opcode table row of
its own mnemonic, and no other (R95, R101). -/

namespace Sys2Proof.Laws.SelectsItsRow

/-- The rows of the command table that a word selects, by their mnemonics. -/
def selected (w : Cmd) : List String := (commandRows.filter (·.selects w)).map (·.mnemonic)

/-- A command's word selects its own row of the command table and no other; a micro-operation's code is the phase
code that selects it. -/
def Statement (i : Instr) : Prop :=
  match encode i with
  | .c96 w => selected w = [i.mnemonic]
  | .seq4 c => (phaseOfCode c).map Phase.instr = some i

section Rows

variable (h w y x : BitVec 16) (op : BitVec 8) (r g b : Byte)

theorem beq_packed (p : Cmd) (op' : BitVec 8) (hp : p = packCmd 0 0 0 0 op' 0 0 0) :
    (packCmd h w y x op r g b == p) =
      decide (h = 0 ∧ w = 0 ∧ y = 0 ∧ x = 0 ∧ op = op' ∧ r = 0 ∧ g = 0 ∧ b = 0) := by
  subst hp
  rw [Bool.eq_iff_iff, beq_iff_eq, packCmd_inj, decide_eq_true_iff]

theorem selects_configure (n : String) :
    Row.selects ⟨n, 0x000000000000000001000000, 0xFFFFFFFFFFFFFFFFFFFFFF00⟩ (packCmd h w y x op r g b) =
      decide (h = 0 ∧ w = 0 ∧ y = 0 ∧ x = 0 ∧ op = 0x01 ∧ r = 0 ∧ g = 0) := by
  unfold Row.selects
  dsimp only
  rw [and_maskConfigure, beq_packed _ _ _ _ _ _ _ _ _ 0x01 (by decide)]
  simp

theorem selects_set (n : String) :
    Row.selects ⟨n, 0x000000000000000010000000, 0xFFFFFFFF00000000FF000000⟩ (packCmd h w y x op r g b) =
      decide (h = 0 ∧ w = 0 ∧ op = 0x10) := by
  unfold Row.selects
  dsimp only
  rw [and_maskSet, beq_packed _ _ _ _ _ _ _ _ _ 0x10 (by decide)]
  simp

theorem selects_fill (n : String) :
    Row.selects ⟨n, 0x000000000000000011000000, 0x0000000000000000FF000000⟩ (packCmd h w y x op r g b) =
      decide (op = 0x11) := by
  unfold Row.selects
  dsimp only
  rw [and_maskFill, beq_packed _ _ _ _ _ _ _ _ _ 0x11 (by decide)]
  simp

/-- A row without operands: every other field is zero. -/
theorem selects_plain (n : String) (p : Cmd) (op' : BitVec 8) (hp : p = packCmd 0 0 0 0 op' 0 0 0) :
    Row.selects ⟨n, p, 0xFFFFFFFFFFFFFFFFFFFFFFFF⟩ (packCmd h w y x op r g b) =
      decide (h = 0 ∧ w = 0 ∧ y = 0 ∧ x = 0 ∧ op = op' ∧ r = 0 ∧ g = 0 ∧ b = 0) := by
  rw [Row.selects, and_maskAll, beq_packed _ _ _ _ _ _ _ _ p op' hp]

/-- Which rows a packed word selects. -/
theorem selected_packCmd :
    selected (packCmd h w y x op r g b) = (commandRows.filter fun row =>
      row.mnemonic = "CONFIGURE" ∧ (h = 0 ∧ w = 0 ∧ y = 0 ∧ x = 0 ∧ op = 0x01 ∧ r = 0 ∧ g = 0) ∨
      row.mnemonic = "SET" ∧ (h = 0 ∧ w = 0 ∧ op = 0x10) ∨
      row.mnemonic = "FILL" ∧ op = 0x11 ∨
      row.mnemonic = "CLEAR" ∧ (h = 0 ∧ w = 0 ∧ y = 0 ∧ x = 0 ∧ op = 0x12 ∧ r = 0 ∧ g = 0 ∧ b = 0) ∨
      row.mnemonic = "GETBUF" ∧ (h = 0 ∧ w = 0 ∧ y = 0 ∧ x = 0 ∧ op = 0x13 ∧ r = 0 ∧ g = 0 ∧ b = 0) ∨
      row.mnemonic = "PUBLISH" ∧ (h = 0 ∧ w = 0 ∧ y = 0 ∧ x = 0 ∧ op = 0x20 ∧ r = 0 ∧ g = 0 ∧ b = 0) ∨
      row.mnemonic = "ACQUIRE" ∧ (h = 0 ∧ w = 0 ∧ y = 0 ∧ x = 0 ∧ op = 0x21 ∧ r = 0 ∧ g = 0 ∧ b = 0)).map
        (·.mnemonic) := by
  unfold selected
  congr 1
  apply List.filter_congr
  intro row hrow
  simp only [commandRows, List.mem_cons, List.not_mem_nil, or_false] at hrow
  obtain rfl | rfl | rfl | rfl | rfl | rfl | rfl := hrow
  · rw [selects_configure]; simp
  · rw [selects_set]; simp
  · rw [selects_fill]; simp
  · rw [selects_plain h w y x op r g b _ _ 0x12 (by decide)]; simp
  · rw [selects_plain h w y x op r g b _ _ 0x13 (by decide)]; simp
  · rw [selects_plain h w y x op r g b _ _ 0x20 (by decide)]; simp
  · rw [selects_plain h w y x op r g b _ _ 0x21 (by decide)]; simp

end Rows

theorem configure (d : Nat) : Statement (.configure d) := by
  simp [Statement, encode, selected_packCmd, commandRows, Instr.mnemonic]

theorem set (x y : Int) (c : Color) : Statement (.set x y c) := by
  simp [Statement, encode, selected_packCmd, commandRows, Instr.mnemonic]

theorem fill (x y : Int) (w h : Nat) (c : Color) : Statement (.fill x y w h c) := by
  simp [Statement, encode, selected_packCmd, commandRows, Instr.mnemonic]

theorem clear : Statement .clear := by
  simp [Statement, encode, selected_packCmd, commandRows, Instr.mnemonic]

theorem getbuf : Statement .getbuf := by
  simp [Statement, encode, selected_packCmd, commandRows, Instr.mnemonic]

theorem publish : Statement .publish := by
  simp [Statement, encode, selected_packCmd, commandRows, Instr.mnemonic]

theorem acquire : Statement .acquire := by
  simp [Statement, encode, selected_packCmd, commandRows, Instr.mnemonic]

theorem waitf : Statement .waitf := rfl
theorem shdata : Statement .shdata := rfl
theorem shclkh : Statement .shclkh := rfl
theorem shclkl : Statement .shclkl := rfl
theorem blank : Statement .blank := rfl
theorem latl : Statement .latl := rfl
theorem lath : Statement .lath := rfl
theorem addr : Statement .addr := rfl
theorem unblank : Statement .unblank := rfl
theorem endblank : Statement .endblank := rfl
theorem poll : Statement .poll := rfl

end Sys2Proof.Laws.SelectsItsRow
end

