-- ==== Sys2Proof/Machine/Asm.lean ====
section
/-! DEFINITION. The assembler spelling of the commands and of a micro-operation with its position (R105). -/

namespace Sys2Proof.Machine

/-- One hexadecimal digit. -/
def hexDigit (n : Nat) : Char :=
  ['0', '1', '2', '3', '4', '5', '6', '7', '8', '9', 'A', 'B', 'C', 'D', 'E', 'F'].getD n '?'

/-- A byte as two hexadecimal digits. -/
def hexByte (v : Byte) : String := String.ofList [hexDigit (v.toNat / 16), hexDigit (v.toNat % 16)]

/-- A colour as `#RRGGBB`, red first. -/
def asmColor (c : Color) : String := "#" ++ hexByte c.r ++ hexByte c.g ++ hexByte c.b

/-- The operands of a command, comma-separated, after its mnemonic; a micro-operation has none (R105). -/
def asm (i : Instr) : String :=
  match i with
  | .configure d => i.mnemonic ++ " " ++ toString d
  | .set x y c => i.mnemonic ++ " " ++ toString x ++ ", " ++ toString y ++ ", " ++ asmColor c
  | .fill x y w h c =>
    i.mnemonic ++ " " ++ toString x ++ ", " ++ toString y ++ ", " ++ toString w ++ ", " ++ toString h ++ ", " ++ asmColor c
  | .clear => i.mnemonic
  | .getbuf => i.mnemonic
  | .publish => i.mnemonic
  | .acquire => i.mnemonic
  | .waitf => i.mnemonic
  | .shdata => i.mnemonic
  | .shclkh => i.mnemonic
  | .shclkl => i.mnemonic
  | .blank => i.mnemonic
  | .latl => i.mnemonic
  | .lath => i.mnemonic
  | .addr => i.mnemonic
  | .unblank => i.mnemonic
  | .endblank => i.mnemonic
  | .poll => i.mnemonic

/-- A micro-operation followed by its position, as a trace writes it (R105). -/
def asmPosition (q : Seq) : String :=
  q.phase.instr.mnemonic ++ "(l=" ++ toString q.level.toNat ++ ", r=" ++ toString q.row.toNat ++ ", c=" ++
    toString q.col.toNat ++ ")"

end Sys2Proof.Machine
end

