-- ==== Sys2Proof/Tests/Slice0.lean ====
section
/-! SUPPORT. The model's own tests: the checks of WellFormed, one written-out code for every constructor, one or two
vectors of the spec for every instruction, and for every statement with hypotheses states that meet them. -/

namespace Sys2Proof.Tests

open Sys2Proof.Machine Sys2Proof.Safety Sys2Proof.Claims

/-! ## States -/

/-- Reset and then CONFIGURE 4 (R140, its example). -/
def configured : State :=
  { State.reset with mode := .run, bitDepth := 4, brightnessStep := 16, brightnessCount := 15 }

/-- The first frame has been taken up and ACQUIRE is done: XCHG = (1, -, -, 0); the next line write is answered `a`. -/
def scanning (q : Seq) (a : PinAnswer) : State :=
  { configured with seq := q, cOwn := some 1, rOwn := some 0, pinAnswers := [a] }

/-- A scanning state with the lines at `p`. -/
def scanningWith (q : Seq) (p : Pins) : State := { scanning q .ok with pins := p }

/-- PUBLISH after CONFIGURE: XCHG = (-, 0, -, 1). -/
def published : State := { configured with cOwn := none, toR := some 0 }

/-- After the swap of WAITF: XCHG = (-, -, 1, 0). -/
def returned : State := { configured with seq := ⟨.shdata, 1, 0, 0⟩, cOwn := none, toC := some 1, rOwn := some 0 }

/-- After a failed BLANK in the first row, with the second frame handed over and no buffer back: XCHG = (-, 1, -, 0). -/
def stopped : State := { scanning ⟨.blank, 1, 0, 63⟩ .ok with mode := .halted, cOwn := none, toR := some 1 }

/-- `s` with `w` as the command being issued and the Compositor's turn next. -/
def issuing (w : Cmd) (s : State) : State := { s with port := [w], turns := [.compositor] }

/-- The result of an outcome, if it is a next state. -/
def resultOf {α : Type} (f : State → α) (o : Result) : Option α :=
  match o with
  | .next t => some (f t)
  | .fault _ => none
  | .refused _ => none

/-! ## WellFormed refuses what no encoding holds (R94) -/

theorem test_configure_256_ill_formed : ¬WellFormed (.configure 256) := by decide
theorem test_set_x_above_ill_formed : ¬WellFormed (.set 32768 0 ⟨0, 0, 0⟩) := by decide
theorem test_set_x_below_ill_formed : ¬WellFormed (.set (-32769) 0 ⟨0, 0, 0⟩) := by decide
theorem test_set_y_above_ill_formed : ¬WellFormed (.set 0 32768 ⟨0, 0, 0⟩) := by decide
theorem test_set_y_below_ill_formed : ¬WellFormed (.set 0 (-32769) ⟨0, 0, 0⟩) := by decide
theorem test_fill_x_ill_formed : ¬WellFormed (.fill (-32769) 0 1 1 ⟨0, 0, 0⟩) := by decide
theorem test_fill_y_ill_formed : ¬WellFormed (.fill 0 32768 1 1 ⟨0, 0, 0⟩) := by decide
theorem test_fill_w_ill_formed : ¬WellFormed (.fill 0 0 65536 1 ⟨0, 0, 0⟩) := by decide
theorem test_fill_h_ill_formed : ¬WellFormed (.fill 0 0 1 65536 ⟨0, 0, 0⟩) := by decide

/-! ## Decoding: words of 30_encoding section 10 and 95_test_vectors part 2, the phase codes of R101 -/

theorem test_decode_configure : decodeTableWord 96 0x000000000000000001000004 = some (.configure 4) := by decide
theorem test_decode_set :
    decodeC96 (cmdOfWords 0x1000FF00 0x0005FFFF 0x00000000) = .ok (.set (-1) 5 ⟨0x00, 0xFF, 0x00⟩) := by decide
theorem test_decode_set_extreme :
    decodeTableWord 96 0x0000000080007FFF10000000 = some (.set 32767 (-32768) ⟨0, 0, 0⟩) := by decide
theorem test_decode_fill :
    decodeC96 (cmdOfWords 0x11808080 0xFFFE003C 0x00040008) = .ok (.fill 60 (-2) 8 4 ⟨0x80, 0x80, 0x80⟩) := by decide
theorem test_decode_fill_extreme :
    decodeTableWord 96 0xFFFFFFFF8000800011FFFFFF = some (.fill (-32768) (-32768) 65535 65535 ⟨255, 255, 255⟩) := by
  decide
theorem test_decode_clear : decodeC96 0x000000000000000012000000 = .ok .clear := by decide
theorem test_decode_getbuf : decodeC96 0x000000000000000013000000 = .ok .getbuf := by decide
theorem test_decode_publish : decodeC96 0x000000000000000020000000 = .ok .publish := by decide
theorem test_decode_acquire : decodeC96 0x000000000000000021000000 = .ok .acquire := by decide
theorem test_decode_waitf : decodeTableWord 8 0b0000 = some .waitf := by decide
theorem test_decode_shdata : decodeTableWord 8 0b0001 = some .shdata := by decide
theorem test_decode_shclkh : decodeTableWord 8 0b0010 = some .shclkh := by decide
theorem test_decode_shclkl : decodeTableWord 8 0b0011 = some .shclkl := by decide
theorem test_decode_blank : decodeTableWord 8 0b0100 = some .blank := by decide
theorem test_decode_latl : decodeTableWord 8 0b0101 = some .latl := by decide
theorem test_decode_lath : decodeTableWord 8 0b0110 = some .lath := by decide
theorem test_decode_addr : decodeTableWord 8 0b0111 = some .addr := by decide
theorem test_decode_unblank : decodeTableWord 8 0b1000 = some .unblank := by decide
theorem test_decode_endblank : decodeTableWord 8 0b1001 = some .endblank := by decide
theorem test_decode_poll : decodeTableWord 8 0b1010 = some .poll := by decide

/-- The illegal words of the table in 95_test_vectors part 2, and CLEAR with x = 1. -/
theorem test_decode_illegal :
    [0x000000000000000001000104, 0x000000000001000001000004, 0x000000010000000010FF0000, 0x000000000000000012000001,
      0, 0x000000000000000002000000, 0x000000000000000014000000, 0x0000000000000000FF000000,
      0x000000000000000112000000].map (fun w => (decodeC96 w).toOption) = List.replicate 9 none := by decide

theorem test_decode_reserved_phases :
    [11, 12, 13, 14, 15].map (fun c => (decodeSeq4 c).toOption) = List.replicate 5 none := by decide

/-- The words are transferred W0 first (R92). -/
theorem test_cmdWords : cmdWords 0x00040008FFFE003C11808080 = [0x11808080, 0xFFFE003C, 0x00040008] := by decide

/-- The seven rows are disjoint (R95): their opcodes differ and every mask keeps the opcode. -/
theorem test_rows_disjoint :
    commandRows.Pairwise fun a b => cmdOp a.pattern ≠ cmdOp b.pattern ∧ cmdOp a.mask = 0xFF ∧ cmdOp b.mask = 0xFF := by
  decide

/-! ## The Compositor's commands -/

theorem test_configure_4 : resultOf (fun t => (t.mode, t.bitDepth, t.brightnessStep, t.brightnessCount, t.resp))
    (exec (.configure 4) State.reset) = some (.run, 4, 16, 15, 0x0000) := by decide

theorem test_configure_9_then_4 :
    resultOf (fun t => (t.mode, t.bitDepth, t.resp)) (exec (.configure 9) State.reset) = some (.cfgErr, 0, 0x0100) ∧
      resultOf (fun t => (t.mode, t.resp)) (exec (.configure 4) { State.reset with mode := .cfgErr }) =
        some (.cfgErr, 0x0400) := by decide

/-- `SET 63, 63, #FFFFFF` from reset, with GammaFull. -/
theorem test_set_last_pixel : resultOf (fun t => fbRead t.fb 0 63 63) (exec (.set 63 63 ⟨255, 255, 255⟩) State.reset) =
    some ⟨255, 255, 255⟩ := by
  rw [exec, execSet_owned rfl, storedPixel_white]
  decide

/-- `SET 64, 0, #FF0000` and `SET -1, 0, #FF0000` are dropped, and answered OK. -/
theorem test_set_clips : ∀ x ∈ [64, -1], resultOf (fun t => (t.fb, t.resp)) (exec (.set x 0 ⟨255, 0, 0⟩) State.reset) =
    some ([], 0) := by
  decide

/-- `FILL 62, -1, 4, 3, #FFFFFF` writes (1, 63), and not (1, 61), nor (2, 62). -/
theorem test_fill_clips :
    resultOf (fun t => (fbRead t.fb 0 1 63, fbRead t.fb 0 1 61, fbRead t.fb 0 2 62))
      (exec (.fill 62 (-1) 4 3 ⟨255, 255, 255⟩) State.reset) = some (⟨255, 255, 255⟩, ⟨0, 0, 0⟩, ⟨0, 0, 0⟩) := by
  rw [exec, execFill_owned rfl, storedPixel_white, resultOf]
  simp only [respond_fb]
  rw [fbRead_fbWriteWhere 0 _ _ inGrid_gridCells (by decide) 0 (by decide) (by decide),
    fbRead_fbWriteWhere 0 _ _ inGrid_gridCells (by decide) 0 (by decide) (by decide),
    fbRead_fbWriteWhere 0 _ _ inGrid_gridCells (by decide) 0 (by decide) (by decide),
    if_pos ⟨rfl, mem_gridCells.2 (by decide), by decide⟩, if_neg fun h => absurd h.2.2 (by decide),
    if_neg fun h => absurd h.2.2 (by decide)]
  decide

/-- `FILL 0, 0, 0, 5, #FFFFFF` covers no pixel. -/
theorem test_fill_empty : ∀ y ∈ [0, 4], inRect 0 0 0 5 y 0 = false := by decide

/-- CLEAR empties buffer 0 and leaves buffer 1 alone. -/
theorem test_clear : resultOf (fun t => t.fb) (exec .clear { State.reset with fb := [(0, 7), (12287, 1), (12288, 9)] }) =
    some [(12288, 9)] := by decide

theorem test_getbuf : resultOf (fun t => t.resp) (exec .getbuf (scanning ⟨.waitf, 0, 0, 0⟩ .ok)) = some 0x0001 := by decide

theorem test_getbuf_refused : resultOf (fun t => t.resp) (exec .getbuf published) = some 0x0200 := by decide

theorem test_publish : resultOf (fun t => (t.cOwn, t.toR, t.toC, t.rOwn, t.resp)) (exec .publish configured) =
    some (none, some 0, none, some 1, 0) := by decide

theorem test_publish_twice : resultOf id (exec .publish published) =
    some { published with resp := 0x0200 } := by decide

theorem test_acquire : resultOf (fun t => (t.cOwn, t.toR, t.toC, t.rOwn, t.resp)) (exec .acquire returned) =
    some (some 1, none, none, some 0, 0x0001) := by decide

theorem test_acquire_holds : resultOf id (exec .acquire published) = some published := by decide

/-- The slot primitive alone: the vector V7. -/
theorem test_slot : slotSignal (slotSignal (slotSignal none 1) 2) 3 = some 3 ∧ slotTryTake (some 3) = (some 3, none) ∧
    slotTryTake (none : Option Nat) = (none, none) := by decide

/-- An illegal word is answered 0x0300 (R236). -/
theorem test_illegal_word : resultOf (fun t => t.resp) (step (issuing 0x000000000000000112000000 State.reset)) =
    some 0x0300 := by decide

/-! ## The Refresher's micro-operations: the examples of their rules -/

theorem test_waitf : resultOf (fun t => (t.toR, t.toC, t.rOwn, t.seq)) (exec .waitf published) =
    some (none, some 1, some 0, ⟨.shdata, 1, 0, 0⟩) := by decide

theorem test_waitf_holds : resultOf id (exec .waitf configured) = some configured := by decide

/-- R164, its example: one red pixel in the top half. -/
theorem test_shdata_red : resultOf (fun t => (t.pins, t.seq))
    (exec .shdata { scanning ⟨.shdata, 1, 0, 0⟩ .ok with fb := [(0, 255)] }) =
      some (0x3001, ⟨.shclkh, 1, 0, 0⟩) := by decide

/-- Top white and bottom (0, 0, 255) drive 0b100111 (95_test_vectors P2, event 3). -/
theorem test_shdata_lanes : lanes (fbWrite 0 0 1 ⟨255, 255, 255⟩ (fbWrite 0 32 1 ⟨0, 0, 255⟩ [])) 0 0 1 128 = 0b100111 := by
  decide

theorem test_shclkh : resultOf (fun t => t.pins) (exec .shclkh (scanningWith ⟨.shclkh, 1, 0, 0⟩ 0x1001)) =
    some 0x1801 := by decide

theorem test_shclkl_last : resultOf (fun t => t.seq) (exec .shclkl (scanning ⟨.shclkl, 3, 7, 63⟩ .ok)) =
    some ⟨.blank, 3, 7, 63⟩ := by decide

theorem test_shclkl_next : resultOf (fun t => (t.seq, t.pins)) (exec .shclkl (scanningWith ⟨.shclkl, 3, 7, 62⟩ 0x1801)) =
    some (⟨.shdata, 3, 7, 63⟩, 0x1001) := by decide

theorem test_blank : resultOf (fun t => t.pins) (exec .blank (scanningWith ⟨.blank, 1, 1, 63⟩ 0x1040)) =
    some 0x3040 := by decide

theorem test_latl : resultOf (fun t => t.pins) (exec .latl (scanningWith ⟨.latl, 1, 1, 63⟩ 0x3040)) =
    some 0x2040 := by decide

theorem test_lath : resultOf (fun t => t.pins) (exec .lath (scanningWith ⟨.lath, 1, 1, 63⟩ 0x2040)) =
    some 0x3040 := by decide

/-- LATH whose write fails with the draw 0 (95_test_vectors part 2, errors). -/
theorem test_lath_fails : resultOf (fun t => (t.pins, t.mode, t.seq, t.trace))
    (exec .lath { scanning ⟨.lath, 2, 5, 63⟩ (.failed 0) with pins := 0x2100 }) =
      some (0x2100, .halted, ⟨.lath, 2, 5, 63⟩, []) := by decide

theorem test_addr : resultOf (fun t => t.pins) (exec .addr (scanningWith ⟨.addr, 1, 5, 63⟩ 0x3100)) =
    some 0x3140 := by decide

theorem test_unblank_next_row_and_level :
    resultOf (fun t => t.seq) (exec .unblank (scanning ⟨.unblank, 14, 30, 63⟩ .ok)) = some ⟨.shdata, 14, 31, 0⟩ ∧
      resultOf (fun t => t.seq) (exec .unblank (scanning ⟨.unblank, 14, 31, 63⟩ .ok)) = some ⟨.shdata, 15, 0, 0⟩ := by
  decide

theorem test_unblank_last : resultOf (fun t => (t.seq, t.pins))
    (exec .unblank (scanningWith ⟨.unblank, 15, 31, 63⟩ 0x37C0)) = some (⟨.endblank, 15, 31, 63⟩, 0x17C0) := by decide

theorem test_endblank : resultOf (fun t => (t.pins, t.seq)) (exec .endblank (scanningWith ⟨.endblank, 15, 31, 63⟩ 0x17C0)) =
    some (0x37C0, ⟨.poll, 15, 31, 63⟩) := by decide

theorem test_poll : resultOf (fun t => (t.toR, t.toC, t.rOwn, t.seq))
    (exec .poll { scanning ⟨.poll, 15, 31, 63⟩ .ok with toR := some 1, cOwn := none }) =
      some (none, some 0, some 1, ⟨.shdata, 1, 0, 0⟩) := by decide

theorem test_poll_again : resultOf id (exec .poll (scanning ⟨.poll, 15, 31, 63⟩ .ok)) =
    some (scanning ⟨.shdata, 1, 0, 0⟩ .ok) := by decide

/-- A write of RGB that fails with the draw 0b111111 (95_test_vectors P5). -/
theorem test_pin_error : resultOf (fun t => (t.pins, t.mode, t.seq.phase))
    (exec .shdata { scanning ⟨.shdata, 1, 0, 1⟩ (.failed 0b111111) with pins := 0x3007 }) =
      some (0x303F, .halted, .shdata) := by decide

/-- Single comparisons of 95_test_vectors part 2, at bit depth 4. -/
theorem test_comparisons : isOn 16 16 = true ∧ isOn 15 16 = false ∧ isOn 240 240 = true ∧ isOn 239 240 = false := by decide

/-- The assembler spelling of the examples of 30_encoding section 10 and of R105. -/
theorem test_asm : asm (.set (-1) 5 ⟨0x00, 0xFF, 0x00⟩) = "SET -1, 5, #00FF00" ∧
    asm (.configure 4) = "CONFIGURE 4" ∧ asmPosition ⟨.shdata, 1, 0, 5⟩ = "SHDATA(l=1, r=0, c=5)" := by decide +kernel

/-! ## Placing an instruction -/

theorem test_place_command :
    resultOf id (step (State.reset.withFetchWord 96 0x000000000000000020000000)) =
      resultOf id (exec .publish { State.reset with port := [0x20000000] }) := by decide

theorem test_place_phase : resultOf id (step (configured.withFetchWord 8 10)) =
    resultOf id (exec .poll { configured with seq := ⟨.poll, 0, 0, 0⟩ }) := by decide

/-! ## States that meet the hypotheses of the statements -/

theorem witness_DecodeOfEncodeIsTheInstruction :
    WellFormed (.configure 255) ∧ WellFormed (.set (-32768) 32767 ⟨1, 2, 3⟩) ∧
      WellFormed (.fill 32767 (-32768) 65535 65535 ⟨255, 255, 255⟩) ∧ WellFormed .poll := by decide

theorem witness_DecodedCodeEncodesBack :
    decode (.c96 0x0000000000000000010000FF) = .ok (.configure 255) ∧ decode (.seq4 10) = .ok .poll := by decide

theorem witness_MatchAndMaskSelectTheCommand :
    decodeC96 0x000000000000000012000000 = .ok .clear ∧
      decodeC96 0x000000000000000012000001 = .error (.unusedFieldNotZero "CLEAR") := by decide

theorem witness_StepExecutesTheIssuedCommand :
    (nextTurn (issuing 0x13000000 configured) = .compositor ∧ (issuing 0x13000000 configured).port = [0x13000000] ∧
      decode (.c96 0x13000000) = .ok .getbuf) ∧
    (nextTurn { configured with turns := [.compositor] } = .compositor ∧ configured.port = []) := by decide

theorem witness_StepExecutesTheSelectedMicroOperation :
    (nextTurn { configured with turns := [.refresher] } = .refresher ∧ configured.mode = .run ∧
      decode (.seq4 configured.seq.phase.code) = .ok .waitf) ∧
    (nextTurn { State.reset with turns := [.refresher] } = .refresher ∧ State.reset.mode ≠ .run) ∧
    nextTurn { configured with turns := [.nobody] } = .nobody := by decide

theorem witness_UnmatchedWordIsIllegal :
    nextTurn (issuing 0x22000000 configured) = .compositor ∧ (issuing 0x22000000 configured).port = [0x22000000] ∧
      ∀ r ∈ commandRows, (0x22000000 : Cmd) &&& r.mask ≠ r.pattern := by decide

theorem witness_SetWritesOnePixel :
    Memory.wf configured.fb = true ∧ configured.cOwn = some 0 ∧ published.cOwn = none ∧
      ((0 : Int) ≤ 63 ∧ (63 : Int) < 64) ∧ ¬((64 : Int) < 64) ∧ ¬((0 : Int) ≤ -1) := by decide

/-- The two sides of the encoding clause of SET: a word with w = h = 0, and one with w = 1. -/
theorem witness_CommandForm_set :
    (0x00000000003F003F10FFFFFF : Cmd).extractLsb' 24 8 = 0x10 ∧ (0x00000000003F003F10FFFFFF : Cmd).extractLsb' 64 32 = 0 ∧
      (0x000000010000000010FF0000 : Cmd).extractLsb' 24 8 = 0x10 ∧
      ¬((0x000000010000000010FF0000 : Cmd).extractLsb' 64 32 = 0) := by decide

theorem witness_CommandForm_fill : (0xFFFFFFFF8000800011FFFFFF : Cmd).extractLsb' 24 8 = 0x11 := by decide

/-- The two sides of the encoding clause of CONFIGURE. -/
theorem witness_CommandForm_configure :
    ((0x0000000000000000010000FF : Cmd).extractLsb' 24 8 = 0x01 ∧ (0x0000000000000000010000FF : Cmd).extractLsb' 8 16 = 0 ∧
      (0x0000000000000000010000FF : Cmd).extractLsb' 32 64 = 0) ∧
    (0x000000000000000001000104 : Cmd).extractLsb' 24 8 = 0x01 ∧
      ¬((0x000000000000000001000104 : Cmd).extractLsb' 8 16 = 0) := by decide

/-- The two sides of the encoding clause of the commands without operands, one pair for each of the four opcodes. -/
theorem witness_CommandForm_allZero : ∀ op ∈ ([0x12, 0x13, 0x20, 0x21] : List (BitVec 8)),
    (op.setWidth 96 <<< 24 : Cmd).extractLsb' 24 8 = op ∧ (op.setWidth 96 <<< 24 : Cmd).extractLsb' 0 24 = 0 ∧
      (op.setWidth 96 <<< 24 : Cmd).extractLsb' 32 64 = 0 ∧
      (op.setWidth 96 <<< 24 ||| 1 : Cmd).extractLsb' 24 8 = op ∧
      ¬((op.setWidth 96 <<< 24 ||| 1 : Cmd).extractLsb' 0 24 = 0) := by decide

/-- A rectangle that reaches out of the grid: its corner pixel (63, 63) is in it, and (62, 63) is not. -/
theorem witness_FillWritesTheRectangle :
    Memory.wf configured.fb = true ∧ configured.cOwn = some 0 ∧ published.cOwn = none ∧
      InRectangle 63 63 65535 65535 63 63 ∧ ¬InRectangle 63 63 65535 65535 62 63 :=
  ⟨by decide, by decide, by decide, ⟨0, 0, by decide⟩, by rintro ⟨i, j, -, -, -, h⟩; omega⟩

theorem witness_ClearZeroesTheOwnedBuffer : configured.cOwn = some 0 ∧ published.cOwn = none := by decide

theorem witness_GetbufNamesTheOwnedBuffer : configured.cOwn = some 0 ∧ published.cOwn = none := by decide

theorem witness_ClearIsTheBlackFill : Memory.wf [(0, 7), (24575, 1)] = true := by decide

theorem witness_DrawingIsIdempotent : Memory.wf configured.fb = true ∧ configured.cOwn = some 0 := by decide

theorem witness_BrighterValueIsOnWhereDarkerIs :
    (0 : Byte).toNat ≤ (255 : Byte).toNat ∧ isOn (Config.gamma.get 0) 0 = true := by
  rw [Config.gamma.zero]
  decide

theorem witness_ConfigureActsOnceAndChecksTheDepth :
    configured.mode ≠ .unconf ∧ State.reset.mode = .unconf ∧ (1 ≤ 1 ∧ 8 ≤ 8) ∧ (0 = 0 ∨ 9 ≤ 0) ∧ (9 = 0 ∨ 9 ≤ 9) := by
  decide

theorem witness_StepAndCountOfEveryDepth : State.reset.mode = .unconf := by decide

/-- The first and the last level of a cycle; the second clause is met at level 14. -/
theorem witness_ThresholdsRiseAndNeverClamp : ∀ l ∈ ([1, 14, 15] : List (BitVec 8)),
    configOk (scanning ⟨.shdata, l, 0, 0⟩ .ok) = true ∧ configured.mode = .run ∧
      levelInRange (scanning ⟨.shdata, l, 0, 0⟩ .ok) = true := by decide

theorem witness_OnAtAsManyLevelsAsTheTopBits : (1 ≤ 1 ∧ 8 ≤ 8) ∧ (1 ≤ 1 ∧ 1 ≤ 2 ^ 1 - 1) ∧ 255 ≤ 2 ^ 8 - 1 := by decide

theorem witness_FullScaleIsOnAndBlackIsOff : (1 ≤ 1 ∧ 8 ≤ 8) ∧ (1 ≤ 1 ∧ 1 ≤ 2 ^ 1 - 1) ∧ 255 ≤ 2 ^ 8 - 1 := by decide

theorem witness_HalfScaleIsOffFromLevelThree : 1 ≤ 1 ∧ 15 ≤ 15 := by decide

theorem witness_ShdataDrivesTheSixLanes :
    configured.mode = .run ∧ (scanning ⟨.shdata, 15, 31, 63⟩ .ok).rOwn = some 0 ∧
      pinAnswer (scanning ⟨.shdata, 15, 31, 63⟩ .ok) = .ok ∧
      pinAnswer (scanning ⟨.shdata, 15, 31, 63⟩ (.failed 5)) = .failed 5 := by decide

/-- The hypotheses of the eight statements of the form DrivesLine, for every phase that writes a line: the write that
succeeds and the write that fails. -/
theorem witness_DrivesLine : ∀ p ∈ [Phase.shclkh, .shclkl, .blank, .latl, .lath, .addr, .unblank, .endblank],
    (scanning ⟨p, 1, 0, 0⟩ .ok).mode = .run ∧ (scanning ⟨p, 1, 0, 0⟩ .ok).seq.phase = p ∧
      pinAnswer (scanning ⟨p, 1, 0, 0⟩ .ok) = .ok ∧ pinAnswer (scanning ⟨p, 1, 0, 0⟩ (.failed 63)) = .failed 63 := by decide

theorem witness_FailedLineWriteHalts :
    ∀ p ∈ [Phase.shdata, .shclkh, .shclkl, .blank, .latl, .lath, .addr, .unblank, .endblank],
      (scanning ⟨p, 1, 0, 0⟩ (.failed 63)).mode = .run ∧ (lineOf p).isSome = true ∧
        (scanning ⟨p, 1, 0, 0⟩ (.failed 63)).rOwn ≠ none ∧
        pinAnswer (scanning ⟨p, 1, 0, 0⟩ (.failed 63)) = .failed 63 := by decide

/-- A micro-operation is not enabled for the mode, or for the phase. -/
theorem witness_DisabledMicroOperationChangesNothing :
    ¬(State.reset.mode = .run ∧ State.reset.seq.phase = .waitf) ∧ ¬(configured.mode = .run ∧ configured.seq.phase = .poll) := by
  decide

/-- States that no run reaches: R_OWN empty. -/
theorem witness_RefresherWithoutBufferStops : ∀ p ∈ [Phase.shdata, .waitf, .poll],
    ({ published with seq := ⟨p, 1, 0, 0⟩, rOwn := none } : State).mode = .run ∧ published.toR ≠ none := by decide

theorem witness_PublishHandsTheBufferOver : configured.cOwn = some 0 ∧ published.cOwn = none := by decide

theorem witness_AcquireTakesHoldsOrIsRefused :
    (returned.cOwn = none ∧ returned.toC = some 1) ∧ (published.cOwn = none ∧ published.toC = none) ∧
      configured.cOwn ≠ none := by decide

/-- WAITF completes, and is held for want of a frame and for want of a configuration; and a step from another phase. -/
theorem witness_WaitfAdoptsTheFirstFrame :
    (published.seq.phase = .waitf ∧ published.mode = .run ∧ published.toR = some 0 ∧ published.rOwn = some 1) ∧
      ¬(configured.mode = .run ∧ configured.toR ≠ none) ∧ ¬(State.reset.mode = .run ∧ State.reset.toR ≠ none) ∧
      resultOf id (step { returned with turns := [.nobody] }) = some returned ∧ returned.seq.phase ≠ .waitf := by decide

/-- POLL with a frame waiting and without one; and the step of ENDBLANK that reaches POLL. -/
theorem witness_PollSwapsOrScansAgain :
    (let s := { scanning ⟨.poll, 15, 31, 63⟩ .ok with toR := some 1, cOwn := none }
     s.mode = .run ∧ s.seq.phase = .poll ∧ s.toR = some 1 ∧ s.rOwn = some 0) ∧
      (scanning ⟨.poll, 15, 31, 63⟩ .ok).toR = none ∧
      resultOf (fun t => t.seq.phase) (step { scanning ⟨.endblank, 15, 31, 63⟩ .ok with turns := [.refresher] }) =
        some .poll := by decide

theorem witness_OwnershipRefusalChangesNothing : published.cOwn = none ∧ configured.cOwn ≠ none := by decide

theorem witness_HandOffExchangesTheBuffers : ∀ p ∈ [Phase.waitf, .poll],
    (let s : State := { configured with seq := ⟨p, 0, 0, 0⟩ }
     s.mode = .run ∧ s.seq.phase = p ∧ s.cOwn = some 0 ∧ s.rOwn = some 1 ∧ s.toR = none ∧ s.toC = none) := by decide

/-- Good states in every part of the cycle, and a step from each. -/
theorem witness_StepKeepsTheInvariant :
    Inv (issuing 0x20000000 State.reset) ∧ Inv published ∧ Inv returned ∧ Inv stopped ∧
      Inv (scanning ⟨.unblank, 15, 31, 63⟩ .ok) ∧ Inv (scanning ⟨.endblank, 15, 31, 63⟩ (.failed 1)) ∧
      (resultOf (fun t => t.toR) (step (issuing 0x20000000 State.reset))).isSome = true := by
  decide

theorem witness_StepKeepsTheLineDiscipline :
    Inv returned ∧ LineInv returned ∧
      resultOf (fun t => t.trace) (step { returned with turns := [.refresher], pinAnswers := [.ok] }) =
        some [⟨.rgb, 0x3000⟩] := by decide

theorem witness_GoodRunNeverStops : Inv State.reset ∧ Inv published := by decide

/-- A drawing command: the Compositor owns buffer 0, the Refresher buffer 1. -/
theorem witness_ScannedBufferIsNeverWritten :
    (let s := issuing 0x12000000 { State.reset with fb := [(0, 7), (12288, 9)] }
     Memory.wf s.fb = true ∧ resultOf (fun t => t.fb) (step s) = some [(12288, 9)] ∧ s.cOwn ≠ some 1 ∧
       ownershipOk s = true ∧ s.rOwn = some 1) := by decide

/-- Steps with each of the moves of MODE. -/
theorem witness_ModeMovesOnlyForward :
    resultOf (fun t => t.mode) (step (issuing 0x01000008 State.reset)) = some .run ∧
      resultOf (fun t => t.mode) (step (issuing 0x01000000 State.reset)) = some .cfgErr ∧
      resultOf (fun t => t.mode) (step { scanning ⟨.blank, 1, 0, 63⟩ (.failed 0) with turns := [.refresher] }) =
        some .halted ∧
      resultOf (fun t => t.mode) (step (issuing 0x13000000 configured)) = some .run := by decide

theorem witness_ErrorsAreFinal : ({ State.reset with mode := .cfgErr } : State).mode = .cfgErr ∧ stopped.mode = .halted := by
  decide

theorem witness_HeldAcquireHangsAfterAnError :
    (issuing 0x21000000 stopped).mode = .halted ∧ (issuing 0x21000000 { stopped with mode := .cfgErr }).mode = .cfgErr ∧
      stopped.cOwn = none ∧ stopped.toC = none ∧ (issuing 0x21000000 stopped).port = [0x21000000] ∧
      decode (.c96 0x21000000) = .ok .acquire := by decide

theorem witness_AgentsKeepToTheirRights :
    nextTurn (issuing 0x20000000 State.reset) = .compositor ∧
      (resultOf (fun t => t.toR) (step (issuing 0x20000000 State.reset))).isSome = true ∧
      nextTurn { published with turns := [.refresher] } = .refresher ∧
      (resultOf (fun t => t.rOwn) (step { published with turns := [.refresher] })).isSome = true := by decide

/-- The swap of WAITF changes R_OWN and fills TO_C. -/
theorem witness_FramesChangeOnlyBetweenCycles :
    resultOf (fun t => (t.rOwn, t.toC)) (step { published with turns := [.refresher] }) = some (some 0, some 1) ∧
      published.rOwn = some 1 ∧ published.toC = none := by decide

/-- Two memories that differ only in buffer 1, byte 12288 being its first. -/
theorem witness_ScanIgnoresTheOtherBuffer :
    returned.rOwn = some 0 ∧
      ∀ a, (0 : BufId).toNat * 12288 ≤ a → a < ((0 : BufId).toNat + 1) * 12288 →
        Memory.read [(12288, 9)] a = Memory.read returned.fb a := by
  refine ⟨by decide, fun a _ ha => ?_⟩
  have hne : a ≠ 12288 := by
    rintro rfl
    exact absurd ha (by decide)
  rw [Memory.read_cons, if_neg hne]
  rfl

theorem witness_RowVisitMakesItsWritesInOrder :
    (let s : State :=
       { scanning ⟨.shdata, 15, 31, 0⟩ .ok with
         turns := List.replicate 197 .refresher ++ [.nobody], pinAnswers := List.replicate 197 .ok ++ [.failed 0] }
     s.mode = .run ∧ s.seq = ⟨.shdata, 15, 31, 0⟩ ∧ s.rOwn = some 0 ∧ ScansFor 197 [.nobody] [.failed 0] s) :=
  ⟨rfl, rfl, rfl, rfl, rfl⟩

/-- At bit depth 1 a full cycle is 6,305 line writes. -/
theorem witness_FullCycleMakesItsWritesInOrder :
    (let s : State :=
       { returned with
         bitDepth := 1, brightnessStep := 128, brightnessCount := 1,
         turns := List.replicate 6305 .refresher ++ [], pinAnswers := List.replicate 6305 .ok ++ [] }
     configOk s = true ∧ s.mode = .run ∧ s.seq = ⟨.shdata, 1, 0, 0⟩ ∧ s.rOwn = some 0 ∧
       s.brightnessCount.toNat * 32 * 197 + 1 = 6305 ∧ ScansFor 6305 [] [] s) :=
  ⟨rfl, rfl, rfl, rfl, rfl, rfl, rfl⟩

theorem witness_PanelLatchesTheRowJustShifted : (⟨List.replicate 64 0, []⟩ : PanelSink).shift.length = 64 := by decide

end Sys2Proof.Tests
end

section
/-! PROOF. The state at reset, the invariant of the machine's data under every step and run, and the moves of MODE
(10_state.md). -/

namespace Sys2Proof.Proofs

open Sys2Proof.Machine Sys2Proof.Safety

/-! ## The environment's fields -/

/-- Taking a turn keeps the invariant, which reads none of the environment's fields. -/
theorem inv_dropTurn {s : State} (h : Inv s) : Inv (dropTurn s) := by
  unfold dropTurn
  split <;> exact h

/-- So does taking an answer of the pin-fault oracle. -/
theorem inv_dropAnswer {s : State} (h : Inv s) : Inv (dropAnswer s) := by
  unfold dropAnswer
  split <;> exact h

@[simp] theorem lineMove_dropAnswer (s : State) : lineMove (dropAnswer s) = lineMove s := by
  simp [lineMove, thresh]

/-! ## Ownership (R44) -/

/-- The three shapes of XCHG: the buffer that is not the Refresher's is the Compositor's, or waits in one slot. -/
theorem ownershipOk_iff {s : State} : ownershipOk s = true ↔ ∃ a b, a ≠ b ∧ s.rOwn = some b ∧
    ((s.cOwn = some a ∧ s.toR = none ∧ s.toC = none) ∨ (s.cOwn = none ∧ s.toR = some a ∧ s.toC = none) ∨
      (s.cOwn = none ∧ s.toR = none ∧ s.toC = some a)) := by
  unfold ownershipOk
  cases s.cOwn <;> cases s.toR <;> cases s.toC <;> cases s.rOwn <;> simp [and_comm]

theorem rOwn_ne_none {s : State} (h : ownershipOk s = true) : s.rOwn ≠ none := by
  obtain ⟨a, b, -, hb, -⟩ := ownershipOk_iff.1 h
  simp [hb]

theorem ownershipOk_published {s : State} {c : BufId} (h : ownershipOk s = true) (hc : s.cOwn = some c) :
    ownershipOk { s with toR := some c, cOwn := none } = true := by
  obtain ⟨a, b, hab, hb, ⟨ha, -, hk⟩ | ⟨ha, -, -⟩ | ⟨ha, -, -⟩⟩ := ownershipOk_iff.1 h
  · obtain rfl : c = a := by simpa [hc] using ha
    exact ownershipOk_iff.2 ⟨c, b, hab, hb, .inr (.inl ⟨rfl, rfl, hk⟩)⟩
  all_goals simp [hc] at ha

theorem ownershipOk_acquired {s : State} {c : BufId} (h : ownershipOk s = true) (hc : s.toC = some c) :
    ownershipOk { s with toC := none, cOwn := some c } = true := by
  obtain ⟨a, b, hab, hb, ⟨-, -, ha⟩ | ⟨-, -, ha⟩ | ⟨-, hr, ha⟩⟩ := ownershipOk_iff.1 h
  case inr.inr =>
    obtain rfl : c = a := by simpa [hc] using ha
    exact ownershipOk_iff.2 ⟨c, b, hab, hb, .inl ⟨rfl, hr, rfl⟩⟩
  all_goals simp [hc] at ha

theorem ownershipOk_swap {s : State} {n old : BufId} (h : ownershipOk s = true) (hn : s.toR = some n)
    (ho : s.rOwn = some old) : ownershipOk (swap n old s) = true := by
  obtain ⟨a, b, hab, hb, ⟨-, ha, -⟩ | ⟨hc, ha, -⟩ | ⟨-, ha, -⟩⟩ := ownershipOk_iff.1 h
  case inr.inl =>
    obtain rfl : n = a := by simpa [hn] using ha
    obtain rfl : old = b := by simpa [ho] using hb
    exact ownershipOk_iff.2 ⟨old, n, hab.symm, rfl, .inr (.inr ⟨hc, rfl, rfl⟩)⟩
  all_goals simp [hn] at ha

/-! ## The configuration registers (R25, R26, R27) -/

/-- An accepted bit depth fits its registers, with the step and the count that belong to it. -/
theorem configOk_setBrightness {d : Nat} (h1 : 1 ≤ d) (h8 : d ≤ 8) (s : State) :
    configOk (setBrightness d s) = true := by
  simp only [configOk, brightnessOf, setBrightness_mode, setBrightness_bitDepth, setBrightness_brightnessStep,
    setBrightness_brightnessCount]
  interval_cases d <;> rfl

theorem configOk_raiseConfigError {s : State} (hm : s.mode = .unconf) (h : configOk s = true) :
    configOk (raiseConfigError s) = true := by
  simpa [configOk, hm] using h

theorem configOk_raisePinError {s : State} (hm : s.mode = .run) (h : configOk s = true) (f : Field)
    (left : FieldVal) : configOk (raisePinError f left s) = true := by
  simp only [configOk, hm] at h
  exact h

/-- A configured engine has at least one brightness level. -/
theorem one_le_brightnessCount {s : State} (hm : s.mode = .run) (h : configOk s = true) :
    1 ≤ s.brightnessCount.toNat := by
  simp only [configOk, hm, brightnessOf, countOfDepth, Bool.and_eq_true, decide_eq_true_eq, beq_iff_eq] at h
  obtain ⟨⟨hd, -⟩, -, hc⟩ := h
  have := Nat.pow_le_pow_right (n := 2) (by decide) hd
  omega

/-! ## The legal positions (R22) -/

/-- A full cycle starts at a legal position. -/
theorem seqOk_cycleStart {s : State} (hq : s.seq = cycleStart) (h : 1 ≤ s.brightnessCount.toNat) : seqOk s = true := by
  simpa [seqOk, levelInRange, hq, cycleStart] using h

/-- SHCLKL goes on to the next column, or to BLANK at the last one (R166). -/
theorem seqOk_afterClock {s t : State} (hl : levelInRange s = true) (hq : t.seq = afterClock s.seq)
    (hc : t.brightnessCount = s.brightnessCount) : seqOk t = true := by
  unfold afterClock at hq
  split at hq
  · simpa [seqOk, levelInRange, hq, hc] using hl
  · next hcol =>
    have hlast : s.seq.col.toNat = Config.cols - 1 := by
      have := s.seq.col.isLt
      simp only [Config.cols] at hcol ⊢
      omega
    simpa [seqOk, levelInRange, lastCol, hq, hc, Seq.inPhase, hlast] using hl

/-- UNBLANK goes on to the next row, the next level, or the end of the cycle (R171). -/
theorem seqOk_afterUnblank {s t : State} (hl : levelInRange s = true) (hcol : lastCol s = true)
    (hq : t.seq = afterUnblank s.brightnessCount s.seq) (hc : t.brightnessCount = s.brightnessCount) :
    seqOk t = true := by
  simp only [levelInRange, decide_eq_true_eq] at hl
  unfold afterUnblank at hq
  split at hq
  · simpa [seqOk, levelInRange, hq, hc] using hl
  · split at hq
    · next hlt =>
      have hnext : (s.seq.level + 1).toNat = s.seq.level.toNat + 1 := by bv_omega
      simp only [seqOk, levelInRange, hq, hc, hnext, decide_eq_true_eq]
      omega
    · next hrow hlt =>
      have hlevel : s.seq.level = s.brightnessCount := BitVec.eq_of_toNat_eq (by omega)
      have hlast : s.seq.row.toNat = Config.addressableRows - 1 := by
        have := s.seq.row.isLt
        simp only [Config.addressableRows] at hrow ⊢
        omega
      simpa [seqOk, hq, hc, Seq.inPhase, hlevel, lastRow, hlast, lastCol] using hcol

/-- Where a successful line write leads, phase by phase (the table of R101). -/
theorem lineMove_next {s : State} {f : Field} {v : FieldVal} {next : Seq} (hl : lineMove s = some (f, v, next)) :
    (s.seq.phase, next) ∈ [(.shdata, s.seq.inPhase .shclkh), (.shclkh, s.seq.inPhase .shclkl),
      (.shclkl, afterClock s.seq), (.blank, s.seq.inPhase .latl), (.latl, s.seq.inPhase .lath),
      (.lath, s.seq.inPhase .addr), (.addr, s.seq.inPhase .unblank),
      (.unblank, afterUnblank s.brightnessCount s.seq), (.endblank, s.seq.inPhase .poll)] := by
  unfold lineMove at hl
  cases hp : s.seq.phase <;> simp only [hp] at hl
  case waitf | poll => cases hl
  case shdata =>
    obtain ⟨b, -, he⟩ := Option.map_eq_some_iff.1 hl
    simp only [Prod.mk.injEq] at he
    simp [he.2.2]
  all_goals
    simp only [Option.some.injEq, Prod.mk.injEq] at hl
    simp [hl.2.2]

/-- A line write leads from a legal position to a legal position. -/
theorem seqOk_lineMove {s t : State} {f : Field} {v : FieldVal} (h : seqOk s = true)
    (hl : lineMove s = some (f, v, t.seq)) (hc : t.brightnessCount = s.brightnessCount) : seqOk t = true := by
  have hq := lineMove_next hl
  unfold seqOk at h
  cases hp : s.seq.phase <;> simp only [hp, List.mem_cons, List.not_mem_nil, Prod.mk.injEq, reduceCtorEq, true_and,
    false_and, false_or, or_false, Bool.and_eq_true] at h hq
  case shclkl => exact seqOk_afterClock h hq hc
  case unblank => exact seqOk_afterUnblank h.1 h.2 hq hc
  all_goals simpa [seqOk, levelInRange, lastRow, lastCol, hq, hc, Seq.inPhase, and_assoc] using h

/-! ## Before the first frame (R206, R238) -/

/-- Once WAITF is left, nothing more is asked of a configured engine. -/
theorem beforeScanOk_of_scanning {s : State} (hp : s.seq.phase ≠ .waitf) (hm : s.mode = .run ∨ s.mode = .halted) :
    beforeScanOk s = true := by
  unfold beforeScanOk
  obtain hm | hm := hm <;> rw [hm] <;> cases hq : s.seq.phase
  case inl.waitf | inr.waitf => exact absurd hq hp
  all_goals rfl

theorem phase_of_unconf {s : State} (hm : s.mode = .unconf) (h : beforeScanOk s = true) : s.seq.phase = .waitf := by
  cases hp : s.seq.phase
  case waitf => rfl
  all_goals simp [beforeScanOk, hm, hp] at h

/-- CONFIGURE finds the engine at WAITF with no line driven, and changes neither, whatever MODE it goes to. -/
theorem beforeScanOk_of_unconf {s t : State} (hm : s.mode = .unconf) (h : beforeScanOk s = true)
    (ht : t.mode ≠ .halted) (hq : t.seq = s.seq) (hp : t.pins = s.pins) (htr : t.trace = s.trace) :
    beforeScanOk t = true := by
  have hw := phase_of_unconf hm h
  simp only [beforeScanOk, hm, hw] at h
  simp only [beforeScanOk, hq, hp, htr, hw]
  cases hk : t.mode
  case halted => exact absurd hk ht
  all_goals exact h

/-- The legal position at WAITF does not depend on the registers that CONFIGURE writes. -/
theorem seqOk_of_waitf {s t : State} (hw : s.seq.phase = .waitf) (h : seqOk s = true) (hq : t.seq = s.seq) :
    seqOk t = true := by
  simpa only [seqOk, hq, hw] using h

/-- Neither end of a line write is WAITF. -/
theorem phase_of_lineMove {s : State} {f : Field} {v : FieldVal} {next : Seq} (hl : lineMove s = some (f, v, next)) :
    s.seq.phase ≠ .waitf ∧ next.phase ≠ .waitf := by
  have hq := lineMove_next hl
  cases hp : s.seq.phase <;> simp only [hp, List.mem_cons, List.not_mem_nil, Prod.mk.injEq, reduceCtorEq, true_and,
    false_and, false_or, or_false] at hq
  case shclkl => rw [hq, afterClock]; split <;> simp [Seq.inPhase]
  case unblank => rw [hq, afterUnblank]; split <;> [skip; split] <;> simp [Seq.inPhase]
  all_goals simp [hq, Seq.inPhase]

/-! ## The invariant of the machine's data -/

/-- A command keeps the invariant. -/
theorem inv_commandMove {s t : State} (h : Inv s) (hc : CommandMove s t) : Inv t := by
  obtain ⟨hown, hcfg, hseq, hscan, hmem⟩ := h
  cases hc with
  | held => exact ⟨hown, hcfg, hseq, hscan, hmem⟩
  | answer c d => exact ⟨hown, hcfg, hseq, hscan, hmem⟩
  | configured d hm h1 h8 =>
    exact ⟨hown, configOk_setBrightness h1 h8 s, seqOk_of_waitf (phase_of_unconf hm hscan) hseq rfl,
      beforeScanOk_of_unconf hm hscan nofun rfl rfl rfl, hmem⟩
  | configError hm =>
    exact ⟨hown, configOk_raiseConfigError hm hcfg, hseq, beforeScanOk_of_unconf hm hscan nofun rfl rfl rfl, hmem⟩
  | drawn b m hb hd => exact ⟨hown, hcfg, hseq, hscan, (hd hmem).1⟩
  | published b hb => exact ⟨ownershipOk_published (s := s) hown hb, hcfg, hseq, hscan, hmem⟩
  | acquired b hb ht => exact ⟨ownershipOk_acquired (s := s) hown ht, hcfg, hseq, hscan, hmem⟩

/-- A line write that succeeds keeps the invariant. -/
theorem inv_lineWritten {s : State} {f : Field} {v : FieldVal} {next : Seq} (h : Inv s) (hm : s.mode = .run)
    (hl : lineMove s = some (f, v, next)) : Inv (lineWritten f v next s) := by
  obtain ⟨hown, hcfg, hseq, -, hmem⟩ := h
  exact ⟨hown, hcfg, seqOk_lineMove hseq hl rfl, beforeScanOk_of_scanning (phase_of_lineMove hl).2 (.inl hm), hmem⟩

/-- PinError entry keeps the invariant. -/
theorem inv_raisePinError {s : State} {f : Field} {v : FieldVal} {next : Seq} (h : Inv s) (hm : s.mode = .run)
    (hl : lineMove s = some (f, v, next)) (left : FieldVal) : Inv (raisePinError f left s) := by
  obtain ⟨hown, hcfg, hseq, -, hmem⟩ := h
  exact ⟨hown, configOk_raisePinError hm hcfg f left, hseq,
    beforeScanOk_of_scanning (phase_of_lineMove hl).1 (.inr rfl), hmem⟩

/-- The first position of a cycle keeps the invariant of a configured engine. -/
theorem inv_cycleStart {s : State} (hm : s.mode = .run) (hown : ownershipOk s = true) (hcfg : configOk s = true)
    (hmem : Memory.wf s.fb = true) : Inv { s with seq := cycleStart } :=
  ⟨hown, hcfg, seqOk_cycleStart rfl (one_le_brightnessCount hm hcfg), beforeScanOk_of_scanning nofun (.inl hm), hmem⟩

/-- The selected micro-operation of a running Refresher keeps the invariant. -/
theorem inv_scanMove {s t : State} (h : Inv s) (hm : s.mode = .run) (hc : ScanMove s t) : Inv t := by
  have hmd : (dropAnswer s).mode = .run := by rw [dropAnswer_mode, hm]
  cases hc with
  | held => exact h
  | written f v next hl => exact inv_lineWritten (inv_dropAnswer h) hmd (by simpa using hl)
  | failed f v next left hl => exact inv_raisePinError (inv_dropAnswer h) hmd (by simpa using hl) left
  | again =>
    obtain ⟨hown, hcfg, -, -, hmem⟩ := h
    exact inv_cycleStart hm hown hcfg hmem
  | swapped n old _ hn ho =>
    obtain ⟨hown, hcfg, -, -, hmem⟩ := h
    exact inv_cycleStart (s := swap n old s) hm (ownershipOk_swap hown hn ho) hcfg hmem

/-- From a good state a step answers a next state, and a good one: the Refresher always owns a buffer. -/
theorem step_of_inv {s : State} (h : Inv s) : ∃ t, step s = .next t ∧ Inv t := by
  obtain ⟨hr, -⟩ | ⟨t, ht, hmove⟩ := step_moves s
  · exact absurd hr (rOwn_ne_none h.1)
  · refine ⟨t, ht, ?_⟩
    have hd := inv_dropTurn h
    obtain rfl | ⟨-, hc⟩ | ⟨-, hm, hc⟩ := hmove
    · exact hd
    · exact inv_commandMove hd hc
    · exact inv_scanMove hd (by rw [dropTurn_mode, hm]) hc

/-- A run of one step more is a step and a run from there. -/
theorem runSteps_succ {s t : State} (k : Nat) (h : step s = .next t) : runSteps (k + 1) s = runSteps k t := by
  have hc : Sys2Proof.core.step s = .next t := h
  simp only [runSteps, Host.Core.run]
  rw [hc]

/-! ## The moves of MODE (R24) -/

/-- MODE stays or moves forward, and the brightness registers change only where it goes from UNCONF to RUN. -/
def ModeMove (s t : State) : Prop :=
  (t.mode = s.mode ∨ (s.mode = .unconf ∧ (t.mode = .run ∨ t.mode = .cfgErr)) ∨ (s.mode = .run ∧ t.mode = .halted)) ∧
    (¬(s.mode = .unconf ∧ t.mode = .run) →
      t.bitDepth = s.bitDepth ∧ t.brightnessStep = s.brightnessStep ∧ t.brightnessCount = s.brightnessCount)

/-- A step that changes neither MODE nor the brightness registers. -/
theorem modeMove_of_eq {s t : State} (hm : t.mode = s.mode) (hd : t.bitDepth = s.bitDepth)
    (hs : t.brightnessStep = s.brightnessStep) (hc : t.brightnessCount = s.brightnessCount) : ModeMove s t :=
  ⟨.inl hm, fun _ => ⟨hd, hs, hc⟩⟩

theorem modeMove_commandMove {s t : State} (hc : CommandMove s t) : ModeMove s t := by
  cases hc with
  | configured d hm => exact ⟨.inr (.inl ⟨hm, .inl rfl⟩), fun hn => absurd ⟨hm, rfl⟩ hn⟩
  | configError hm => exact ⟨.inr (.inl ⟨hm, .inr rfl⟩), fun _ => ⟨rfl, rfl, rfl⟩⟩
  | held | answer | drawn | published | acquired => exact modeMove_of_eq rfl rfl rfl rfl

theorem modeMove_scanMove {s t : State} (hm : s.mode = .run) (hc : ScanMove s t) : ModeMove s t := by
  cases hc with
  | written f v next => apply modeMove_of_eq <;> simp
  | failed f v next left => exact ⟨.inr (.inr ⟨hm, rfl⟩), fun _ => by simp⟩
  | held | again | swapped => exact modeMove_of_eq rfl rfl rfl rfl

theorem modeMove_step {s t : State} (h : step s = .next t) : ModeMove s t := by
  obtain ⟨-, hf⟩ | ⟨t', ht, hmove⟩ := step_moves s
  · rw [hf] at h; cases h
  · obtain rfl : t' = t := by rw [ht] at h; injection h
    have hd : ModeMove (dropTurn s) t' → ModeMove s t' := by simp [ModeMove]
    obtain rfl | ⟨-, hc⟩ | ⟨-, hm, hc⟩ := hmove
    · apply modeMove_of_eq <;> simp
    · exact hd (modeMove_commandMove hc)
    · exact hd (modeMove_scanMove (by rw [dropTurn_mode, hm]) hc)

/-! ## The statements -/

/-- Settles O45: the next state of a good state is unique, and `step_of_inv` says that it is good. -/
theorem stepKeepsTheInvariant : Obligations.StepKeepsTheInvariant := by
  intro s t hs hst
  obtain ⟨t', ht, hinv⟩ := step_of_inv hs
  obtain rfl : t' = t := by rw [ht] at hst; injection hst
  exact hinv

/-- Settles O47, by induction on the number of steps, with progress and preservation of each step. -/
theorem goodRunNeverStops : Obligations.GoodRunNeverStops := by
  intro k
  induction k with
  | zero => exact fun s hs => ⟨s, rfl, hs⟩
  | succ k ih =>
    intro s hs
    obtain ⟨t, ht, hinv⟩ := step_of_inv hs
    rw [runSteps_succ k ht]
    exact ih t hinv

/-- Settles O49. -/
theorem modeMovesOnlyForward : Obligations.ModeMovesOnlyForward := fun _ _ => modeMove_step

/-- Settles O8: the memory after reset lists no byte, so every byte reads as 0. -/
theorem resetClearsTheBuffersAndSharesThemOut : Obligations.ResetClearsTheBuffersAndSharesThemOut :=
  ⟨fun b y x _ _ => by simp [fbRead, State.reset], rfl, rfl⟩

/-- Settles O9. -/
theorem resetRegisters : Obligations.ResetRegisters :=
  ⟨rfl, rfl, rfl, rfl, rfl, rfl, rfl, rfl, rfl, rfl⟩

/-- Settles O10. -/
theorem resetBlanksThePanel : Obligations.ResetBlanksThePanel :=
  ⟨rfl, rfl, rfl, rfl, rfl, rfl, rfl⟩

/-- Settles O36: of the cases of each of the three micro-operations only the stop has R_OWN empty. -/
theorem refresherWithoutBufferStops : Obligations.RefresherWithoutBufferStops := by
  intro s hm hr
  refine ⟨fun hp => ?_, fun hp ht => ?_, fun hp ht => ?_⟩
  · obtain ⟨hn, -⟩ | ⟨-, h⟩ | ⟨b, -, -, hb, -⟩ := execShdata_cases s
    · exact absurd ⟨hm, hp⟩ hn
    · exact h
    · simp [hr] at hb
  · obtain ⟨hn, -⟩ | ⟨-, h⟩ | ⟨n, old, -, -, -, hb, -⟩ := execWaitf_cases s
    · exact absurd ⟨hm, hp, ht⟩ hn
    · exact h
    · simp [hr] at hb
  · obtain ⟨hn, -⟩ | ⟨-, -, hnone, -⟩ | ⟨-, h⟩ | ⟨n, old, -, -, -, hb, -⟩ := execPoll_cases s
    · exact absurd ⟨hm, hp⟩ hn
    · exact absurd hnone ht
    · exact h
    · simp [hr] at hb

/-- Settles O44: both invariants are decided at the one state. -/
theorem resetMeetsTheInvariants : Obligations.ResetMeetsTheInvariants := by
  unfold Obligations.ResetMeetsTheInvariants
  decide

end Sys2Proof.Proofs
end

section
/-! PROOF. Who may change a byte of the frame buffers, which bytes the Refresher reads, the command that a step
executes, and the slot primitive (20_memory.md, 43_buffer_exchange.md section 1). -/

namespace Sys2Proof.Proofs

open Sys2Proof.Machine Sys2Proof.Safety

/-! ## What is executed on a turn -/

theorem fetchCommand_of_decode {w : Cmd} {i : Instr} (hd : decodeC96 w = .ok i) (rest : List Cmd) :
    fetchCommand (w :: rest) = .instr i := by
  simp only [fetchCommand, hd]

theorem step_of_fetch_instr {s : State} {i : Instr} (h : fetch (nextTurn s) (dropTurn s) = .instr i) :
    step s = exec i (dropTurn s) := by
  simp only [step, h]

theorem step_of_fetch_nothing {s : State} (h : fetch (nextTurn s) (dropTurn s) = .nothing) :
    step s = .next (dropTurn s) := by
  simp only [step, h]

/-- The Compositor fetches from the port, which taking the turn leaves alone. -/
theorem fetch_compositor {s : State} (ht : nextTurn s = .compositor) :
    fetch (nextTurn s) (dropTurn s) = fetchCommand s.port := by
  rw [ht, fetch, dropTurn_port]

/-! ## Writes stay in the Compositor's buffer (R66, R72) -/

/-- No byte belongs to two buffers. -/
theorem inBuffer_disjoint {b b' : BufId} (hb : b ≠ b') {a : Nat} (ha : inBuffer b a = true) :
    inBuffer b' a = false := by
  by_contra hc
  rw [Bool.not_eq_false, inBuffer_iff] at hc
  rw [inBuffer_iff] at ha
  exact hb (BitVec.eq_of_toNat_eq (by omega))

/-- What a command does to the memory: nothing, or it draws into the buffer that the Compositor owns. -/
theorem fb_commandMove {s t : State} (hc : CommandMove s t) :
    t.fb = s.fb ∨ ∃ b, s.cOwn = some b ∧ DrawnIn b s.fb t.fb := by
  cases hc with
  | drawn b m hb hd => exact .inr ⟨b, hb, hd⟩
  | held | answer | configured | configError | published | acquired => exact .inl rfl

/-- The Refresher never writes the memory. -/
theorem fb_scanMove {s t : State} (hc : ScanMove s t) : t.fb = s.fb := by
  cases hc with
  | written | failed => simp
  | held | again | swapped => rfl

/-- What a step does to the memory: nothing, or the Compositor draws into the buffer that it owns. -/
theorem fb_step {s t : State} (h : step s = .next t) :
    t.fb = s.fb ∨ ∃ b, s.cOwn = some b ∧ DrawnIn b s.fb t.fb := by
  obtain ⟨-, hf⟩ | ⟨t', ht, hmove⟩ := step_moves s
  · rw [hf] at h; cases h
  · obtain rfl : t' = t := by rw [ht] at h; injection h
    obtain rfl | ⟨-, hc⟩ | ⟨-, -, hc⟩ := hmove
    · exact .inl (dropTurn_fb s)
    · simpa using fb_commandMove hc
    · exact .inl ((fb_scanMove hc).trans (dropTurn_fb s))

/-- A byte of a buffer that the Compositor does not own outlives every step. -/
theorem read_step_of_cOwn_ne {s t : State} (hw : Memory.wf s.fb = true) (h : step s = .next t) {b : BufId}
    (hb : s.cOwn ≠ some b) {a : Nat} (ha : inBuffer b a = true) : Memory.read t.fb a = Memory.read s.fb a := by
  obtain he | ⟨c, hc, hd⟩ := fb_step h
  · rw [he]
  · have hbc : b ≠ c := fun e => hb (e ▸ hc)
    exact (hd hw).2 a (inBuffer_disjoint hbc ha)

/-- The two agents never own the same buffer (R44). -/
theorem cOwn_ne_of_rOwn {s : State} (h : ownershipOk s = true) {b : BufId} (hb : s.rOwn = some b) :
    s.cOwn ≠ some b := by
  obtain ⟨a, b', hab, hb', ⟨hc, -, -⟩ | ⟨hc, -, -⟩ | ⟨hc, -, -⟩⟩ := ownershipOk_iff.1 h
  · obtain rfl : b = b' := by simpa [hb] using hb'
    simpa [hc] using hab
  all_goals simp [hc]

/-! ## Reads stay in the Refresher's buffer (R62, R66) -/

/-- A pixel of the grid is read from bytes of its own buffer only. -/
theorem fbRead_congr {m n : Memory} {b : BufId} (h : ∀ a, inBuffer b a = true → Memory.read m a = Memory.read n a)
    {y x : Nat} (hy : y < Config.rows) (hx : x < Config.cols) : fbRead m b y x = fbRead n b y x := by
  have hk : ∀ k < 3, Memory.read m (pixelAddr b y x + k) = Memory.read n (pixelAddr b y x + k) := fun k hk =>
    h _ (by rw [inBuffer_pixelAddr b b hy hx hk, decide_eq_true rfl])
  have h0 := hk 0 (by decide)
  rw [Nat.add_zero] at h0
  rw [fbRead, fbRead, h0, hk 1 (by decide), hk 2 (by decide)]

/-- The lanes of a row slot are driven from bytes of its own buffer only. -/
theorem lanes_congr {m n : Memory} {b : BufId} (h : ∀ a, inBuffer b a = true → Memory.read m a = Memory.read n a)
    (row : BitVec 5) (col : BitVec 6) (t : Byte) :
    lanes m b row.toNat col.toNat t = lanes n b row.toNat col.toNat t := by
  have hrow := row.isLt
  have hcol : col.toNat < Config.cols := col.isLt
  have htop : row.toNat < Config.rows := by simp only [Config.rows]; omega
  have hbottom : row.toNat + Config.addressableRows < Config.rows := by
    simp only [Config.rows, Config.addressableRows]; omega
  rw [lanes, lanes, rowSlot, rowSlot, fbRead_congr h htop hcol, fbRead_congr h hbottom hcol]

/-! ## Other contents of the memory under a micro-operation -/

/-- The same state with the memory `m`. -/
def withMemory (m : Memory) (s : State) : State := { s with fb := m }

@[simp] theorem enabled_withMemory (p : Phase) (m : Memory) (s : State) :
    enabled p (withMemory m s) = enabled p s := rfl

@[simp] theorem pinAnswer_withMemory (m : Memory) (s : State) : pinAnswer (withMemory m s) = pinAnswer s := rfl

theorem dropAnswer_withMemory (m : Memory) (s : State) :
    dropAnswer (withMemory m s) = withMemory m (dropAnswer s) := by
  cases h : s.pinAnswers <;> simp [dropAnswer, withMemory, h]

theorem pinWrite_withMemory (f : Field) (v : FieldVal) (next : Seq) (m : Memory) (s : State) :
    pinWrite f v next (withMemory m s) = withMemory m (pinWrite f v next s) := by
  obtain ⟨ha, he⟩ | ⟨left, ha, he⟩ := pinWrite_cases f v next s
  · rw [he, pinWrite_ok (by rw [pinAnswer_withMemory, ha]), dropAnswer_withMemory]
    rfl
  · rw [he, pinWrite_failed (by rw [pinAnswer_withMemory, ha]), dropAnswer_withMemory]
    rfl

theorem lineMicroOp_withMemory (p : Phase) (f : Field) (v : FieldVal) (next : Seq) (m : Memory) (s : State) :
    lineMicroOp p f v next (withMemory m s) = withMemory m (lineMicroOp p f v next s) := by
  rw [lineMicroOp, lineMicroOp, enabled_withMemory, pinWrite_withMemory, apply_ite (withMemory m)]

/-- Meaning `f` does not see the exchange of the memory of `s` for `m`: it answers the same next state but for the
memory itself. -/
def SameWithMemory (f : State → Result) (m : Memory) (s : State) : Prop :=
  ∃ t, f s = .next t ∧ f (withMemory m s) = .next (withMemory m t)

theorem sameWithMemory_execWaitf {s : State} {b : BufId} (hr : s.rOwn = some b) (m : Memory) :
    SameWithMemory execWaitf m s := by
  unfold SameWithMemory execWaitf
  rw [enabled_withMemory]
  split
  · cases ht : s.toR with
    | none => exact ⟨s, rfl, by simp [withMemory, ht]⟩
    | some n => exact ⟨{ swap n b s with seq := cycleStart }, by simp only [hr], by simp [withMemory, ht, hr, swap]⟩
  · exact ⟨s, rfl, rfl⟩

theorem sameWithMemory_execPoll {s : State} {b : BufId} (hr : s.rOwn = some b) (m : Memory) :
    SameWithMemory execPoll m s := by
  unfold SameWithMemory execPoll
  rw [enabled_withMemory]
  split
  · cases ht : s.toR with
    | none => exact ⟨_, rfl, by simp [withMemory, ht]⟩
    | some n => exact ⟨{ swap n b s with seq := cycleStart }, by simp only [hr], by simp [withMemory, ht, hr, swap]⟩
  · exact ⟨s, rfl, rfl⟩

/-- SHDATA with a buffer is a line write like the others. -/
theorem execShdata_owned {s : State} {b : BufId} (hr : s.rOwn = some b) :
    execShdata s = .next (lineMicroOp .shdata .rgb (lanes s.fb b s.seq.row.toNat s.seq.col.toNat (thresh s))
      (s.seq.inPhase .shclkh) s) := by
  unfold execShdata lineMicroOp
  split <;> simp only [hr]

/-- SHDATA, the one micro-operation that reads the memory, reads it through the lanes of the Refresher's buffer. -/
theorem sameWithMemory_execShdata {s : State} {b : BufId} (hr : s.rOwn = some b) {m : Memory}
    (h : ∀ a, inBuffer b a = true → Memory.read m a = Memory.read s.fb a) : SameWithMemory execShdata m s := by
  refine ⟨_, execShdata_owned hr, ?_⟩
  have hr' : (withMemory m s).rOwn = some b := hr
  have hm : ∀ a, inBuffer b a = true → Memory.read (withMemory m s).fb a = Memory.read s.fb a := h
  rw [execShdata_owned hr', lanes_congr hm, lineMicroOp_withMemory]
  rfl

/-! ## The statements -/

/-- Settles O54, phase by phase: eight micro-operations write a line whose value is not read from the memory, SHDATA
reads the Refresher's buffer only, and WAITF and POLL move references. -/
theorem scanIgnoresTheOtherBuffer : Obligations.ScanIgnoresTheOtherBuffer := by
  intro s b m hr h
  have hm : ∀ a, inBuffer b a = true → Memory.read m a = Memory.read s.fb a := fun a ha =>
    have ⟨hlo, hhi⟩ := (inBuffer_iff b a).1 ha
    h a hlo hhi
  cases s.seq.phase with
  | waitf => exact sameWithMemory_execWaitf hr m
  | poll => exact sameWithMemory_execPoll hr m
  | shdata => exact sameWithMemory_execShdata hr hm
  | shclkh | shclkl | blank | latl | lath | addr | unblank | endblank =>
    exact ⟨_, rfl, congrArg _ (lineMicroOp_withMemory ..)⟩

/-- Settles O48: with a legal ownership shape the Compositor does not own the buffer in R_OWN, so the first half of the
statement gives the second. -/
theorem scannedBufferIsNeverWritten : Obligations.ScannedBufferIsNeverWritten := by
  intro s t hw h
  have hkeep : ∀ b : BufId, s.cOwn ≠ some b → ∀ a, b.toNat * 12288 ≤ a → a < (b.toNat + 1) * 12288 →
      Memory.read t.fb a = Memory.read s.fb a := fun b hb a hlo hhi =>
    read_step_of_cOwn_ne hw h hb ((inBuffer_iff b a).2 ⟨hlo, hhi⟩)
  exact ⟨hkeep, fun hown b hb => hkeep b (cOwn_ne_of_rOwn hown hb)⟩

/-- Settles O5. -/
theorem stepExecutesTheIssuedCommand : Obligations.StepExecutesTheIssuedCommand := by
  intro s ht
  have hf := fetch_compositor ht
  refine ⟨fun w rest i hp hd => ?_, fun hp => ?_⟩
  · exact step_of_fetch_instr (by rw [hf, hp, fetchCommand_of_decode hd])
  · exact step_of_fetch_nothing (by rw [hf, hp, fetchCommand])

/-- Settles O41: the last signal overwrites whatever the ones before it have left. -/
theorem slotHoldsTheNewestOnly : Obligations.SlotHoldsTheNewestOnly := by
  intro start signals last
  have hnewest : (signals ++ [last]).foldl slotSignal start = some last :=
    List.foldl_concat ..
  rw [hnewest]
  exact ⟨rfl, rfl⟩

end Sys2Proof.Proofs
end

section
/-! PROOF. The encodings of both formats, the match and mask table, and what a turn of the Refresher executes
(30_encoding.md). -/

namespace Sys2Proof.Proofs

open Sys2Proof.Machine Sys2Proof.Laws

/-! ## Operand values and their fields (R94) -/

/-- A number below the bound of its field is the value of one. -/
theorem exists_toNat_eq {k n : Nat} (h : n < 2 ^ k) : ∃ b : BitVec k, b.toNat = n :=
  ⟨BitVec.ofNat k n, by rw [BitVec.toNat_ofNat, Nat.mod_eq_of_lt h]⟩

theorem exists_toInt_eq {v : Int} (h : coordFits v) : ∃ x : BitVec 16, x.toInt = v :=
  ⟨BitVec.ofInt 16 v, BitVec.toInt_ofInt_eq_self (by decide) h.1 (by have := h.2; omega)⟩

theorem coordFits_toInt (x : BitVec 16) : coordFits x.toInt := by
  have hlo := x.le_toInt
  have hhi := x.toInt_lt
  constructor <;> omega

theorem sizeFits_toNat (n : BitVec 16) : sizeFits n.toNat := Nat.le_of_lt_succ n.isLt

/-! ## The legal command words -/

/-- The seven forms of a legal command word and the command of each (R92 to R95): the operand fields are free, every
other field is zero. -/
inductive LegalWord : Cmd → Instr → Prop
  | configure (d : Byte) : LegalWord (packCmd 0 0 0 0 0x01 0 0 d) (.configure d.toNat)
  | set (y x : BitVec 16) (r g b : Byte) :
    LegalWord (packCmd 0 0 y x 0x10 r g b) (.set x.toInt y.toInt ⟨r, g, b⟩)
  | fill (h w y x : BitVec 16) (r g b : Byte) :
    LegalWord (packCmd h w y x 0x11 r g b) (.fill x.toInt y.toInt w.toNat h.toNat ⟨r, g, b⟩)
  | clear : LegalWord (packCmd 0 0 0 0 0x12 0 0 0) .clear
  | getbuf : LegalWord (packCmd 0 0 0 0 0x13 0 0 0) .getbuf
  | publish : LegalWord (packCmd 0 0 0 0 0x20 0 0 0) .publish
  | acquire : LegalWord (packCmd 0 0 0 0 0x21 0 0 0) .acquire

theorem wellFormed_of_legalWord {c : Cmd} {i : Instr} (hl : LegalWord c i) : WellFormed i := by
  cases hl with
  | configure d => exact decide_eq_true (Nat.le_of_lt_succ d.isLt)
  | set y x => exact decide_eq_true ⟨coordFits_toInt x, coordFits_toInt y⟩
  | fill h w y x =>
    exact decide_eq_true ⟨coordFits_toInt x, coordFits_toInt y, sizeFits_toNat w, sizeFits_toNat h⟩
  | clear | getbuf | publish | acquire => rfl

theorem encode_of_legalWord {c : Cmd} {i : Instr} (hl : LegalWord c i) : encode i = .c96 c := by
  cases hl with
  | configure d => rw [encode, BitVec.ofNat_toNat, BitVec.setWidth_eq]
  | set y x => rw [encode, BitVec.ofInt_toInt, BitVec.ofInt_toInt]
  | fill h w y x =>
    rw [encode, BitVec.ofInt_toInt, BitVec.ofInt_toInt, BitVec.ofNat_toNat, BitVec.ofNat_toNat, BitVec.setWidth_eq,
      BitVec.setWidth_eq]
  | clear | getbuf | publish | acquire => rfl

/-- The operands of a well-formed command are the values of fields, so its encoding is a legal word of it. -/
theorem legalWord_of_encode {c : Cmd} {i : Instr} (hi : WellFormed i) (he : encode i = .c96 c) : LegalWord c i := by
  suffices h : ∃ c', LegalWord c' i by
    obtain ⟨c', hl⟩ := h
    obtain rfl : c' = c := by simpa [encode_of_legalWord hl] using he
    exact hl
  cases i with
  | configure d =>
    obtain ⟨d, rfl⟩ := exists_toNat_eq (k := 8) (Nat.lt_succ_of_le (of_decide_eq_true hi))
    exact ⟨_, .configure d⟩
  | set x y c =>
    obtain ⟨hx, hy⟩ := of_decide_eq_true hi
    obtain ⟨x, rfl⟩ := exists_toInt_eq hx
    obtain ⟨y, rfl⟩ := exists_toInt_eq hy
    exact ⟨_, .set y x c.r c.g c.b⟩
  | fill x y w h c =>
    obtain ⟨hx, hy, hw, hh⟩ := of_decide_eq_true hi
    obtain ⟨x, rfl⟩ := exists_toInt_eq hx
    obtain ⟨y, rfl⟩ := exists_toInt_eq hy
    obtain ⟨w, rfl⟩ := exists_toNat_eq (k := 16) (Nat.lt_succ_of_le hw)
    obtain ⟨h, rfl⟩ := exists_toNat_eq (k := 16) (Nat.lt_succ_of_le hh)
    exact ⟨_, .fill h w y x c.r c.g c.b⟩
  | clear => exact ⟨_, .clear⟩
  | getbuf => exact ⟨_, .getbuf⟩
  | publish => exact ⟨_, .publish⟩
  | acquire => exact ⟨_, .acquire⟩
  | waitf | shdata | shclkh | shclkl | blank | latl | lath | addr | unblank | endblank | poll => cases he

/-! ## The decoder accepts exactly the legal words -/

theorem exists_eq_packCmd (c : Cmd) : ∃ h w y x op r g b, c = packCmd h w y x op r g b :=
  ⟨_, _, _, _, _, _, _, _, (packCmd_fields c).symm⟩

section ZeroFields

variable (h w y x : BitVec 16) (op : BitVec 8) (r g b : Byte)

theorem noSize_packCmd : noSize (packCmd h w y x op r g b) = true ↔ w = 0 ∧ h = 0 := by
  simp [noSize]

theorem noOrigin_packCmd : noOrigin (packCmd h w y x op r g b) = true ↔ x = 0 ∧ y = 0 := by
  simp [noOrigin]

theorem noHighColor_packCmd : noHighColor (packCmd h w y x op r g b) = true ↔ r = 0 ∧ g = 0 := by
  simp [noHighColor]

theorem noColor_packCmd : noColor (packCmd h w y x op r g b) = true ↔ (r = 0 ∧ g = 0) ∧ b = 0 := by
  simp [noColor, noHighColor]

end ZeroFields

theorem whenZero_eq_ok {z : Bool} {m : String} {i j : Instr} (h : whenZero z m i = .ok j) : z = true ∧ i = j := by
  cases z with
  | false => cases h
  | true => exact ⟨rfl, by injection h⟩

/-- A word with no operands: where its unused fields are zero, only its opcode is left. -/
theorem eq_packCmd_of_noOperands {c : Cmd} (hz : (noColor c && noOrigin c && noSize c) = true) :
    c = packCmd 0 0 0 0 (cmdOp c) 0 0 0 := by
  obtain ⟨h, w, y, x, op, r, g, b, rfl⟩ := exists_eq_packCmd c
  rw [Bool.and_eq_true, Bool.and_eq_true, noColor_packCmd, noOrigin_packCmd, noSize_packCmd] at hz
  obtain ⟨⟨⟨⟨rfl, rfl⟩, rfl⟩, rfl, rfl⟩, rfl, rfl⟩ := hz
  rw [cmdOp_packCmd]

/-- Opcode by opcode, in the order of the decoder's tests. -/
theorem legalWord_of_decodeC96 {c : Cmd} {i : Instr} (hd : decodeC96 c = .ok i) : LegalWord c i := by
  unfold decodeC96 at hd
  split_ifs at hd with h01 h10 h11 h12 h13 h20 h21
  · obtain ⟨hz, rfl⟩ := whenZero_eq_ok hd
    obtain ⟨h, w, y, x, op, r, g, b, rfl⟩ := exists_eq_packCmd c
    rw [Bool.and_eq_true, Bool.and_eq_true, noHighColor_packCmd, noOrigin_packCmd, noSize_packCmd] at hz
    obtain ⟨⟨⟨rfl, rfl⟩, rfl, rfl⟩, rfl, rfl⟩ := hz
    obtain rfl : op = 0x01 := by rwa [cmdOp_packCmd] at h01
    rw [cmdB_packCmd]
    exact .configure b
  · obtain ⟨hz, rfl⟩ := whenZero_eq_ok hd
    obtain ⟨h, w, y, x, op, r, g, b, rfl⟩ := exists_eq_packCmd c
    obtain ⟨rfl, rfl⟩ := (noSize_packCmd ..).1 hz
    obtain rfl : op = 0x10 := by rwa [cmdOp_packCmd] at h10
    simpa [cmdColor] using LegalWord.set y x r g b
  · obtain ⟨h, w, y, x, op, r, g, b, rfl⟩ := exists_eq_packCmd c
    obtain rfl : op = 0x11 := by rwa [cmdOp_packCmd] at h11
    cases hd
    simpa [cmdColor] using LegalWord.fill h w y x r g b
  · obtain ⟨hz, rfl⟩ := whenZero_eq_ok hd
    rw [eq_packCmd_of_noOperands hz, h12]
    exact .clear
  · obtain ⟨hz, rfl⟩ := whenZero_eq_ok hd
    rw [eq_packCmd_of_noOperands hz, h13]
    exact .getbuf
  · obtain ⟨hz, rfl⟩ := whenZero_eq_ok hd
    rw [eq_packCmd_of_noOperands hz, h20]
    exact .publish
  · obtain ⟨hz, rfl⟩ := whenZero_eq_ok hd
    rw [eq_packCmd_of_noOperands hz, h21]
    exact .acquire

theorem decodeC96_of_legalWord {c : Cmd} {i : Instr} (hl : LegalWord c i) : decodeC96 c = .ok i := by
  cases hl with
  | configure | set | fill =>
    simp [decodeC96, whenZero, noSize, noOrigin, noHighColor, cmdColor]
  | clear | getbuf | publish | acquire => decide

/-! ## Phase codes (R101, R102) -/

theorem encode_instr (p : Phase) : encode p.instr = .seq4 p.code := by cases p <;> rfl

theorem wellFormed_instr (p : Phase) : WellFormed p.instr := by cases p <;> rfl

/-- Decided over the sixteen phase codes. -/
theorem code_of_phaseOfCode : ∀ {code : BitVec 4}, ∀ p ∈ phaseOfCode code, p.code = code := by decide

/-- Only the code of a phase decodes, to the phase's micro-operation. -/
theorem exists_phase_of_decodeSeq4 {code : BitVec 4} {i : Instr} (hd : decodeSeq4 code = .ok i) :
    ∃ p : Phase, p.code = code ∧ p.instr = i := by
  unfold decodeSeq4 at hd
  cases hp : phaseOfCode code with
  | none => rw [hp] at hd; cases hd
  | some p =>
    rw [hp] at hd
    exact ⟨p, code_of_phaseOfCode p hp, by injection hd⟩

/-! ## The match and mask table (R95) -/

/-- The per-row facts of `SelectsItsRow`, over all instructions. -/
theorem selectsItsRow (i : Instr) : SelectsItsRow.Statement i := by
  cases i with
  | configure d => exact SelectsItsRow.configure d
  | set x y c => exact SelectsItsRow.set x y c
  | fill x y w h c => exact SelectsItsRow.fill x y w h c
  | clear => exact SelectsItsRow.clear
  | getbuf => exact SelectsItsRow.getbuf
  | publish => exact SelectsItsRow.publish
  | acquire => exact SelectsItsRow.acquire
  | waitf | shdata | shclkh | shclkl | blank | latl | lath | addr | unblank | endblank | poll => rfl

theorem selected_of_legalWord {c : Cmd} {i : Instr} (hl : LegalWord c i) :
    SelectsItsRow.selected c = [i.mnemonic] := by
  have hrow := selectsItsRow i
  rwa [SelectsItsRow.Statement, encode_of_legalWord hl] at hrow

/-- The row of a command without operands selects its pattern only. -/
theorem eq_pattern_of_selects {m : String} {p c : Cmd}
    (hs : Row.selects ⟨m, p, 0xFFFFFFFFFFFFFFFFFFFFFFFF⟩ c = true) : c = p := by
  rwa [Row.selects, and_maskAll, beq_iff_eq] at hs

/-- A word that selects a row is legal: the row's mask keeps every field that is no operand, and its pattern has all of
them zero but the opcode. -/
theorem exists_legalWord_of_selects {c : Cmd} {row : Row} (hrow : row ∈ commandRows) (hs : row.selects c = true) :
    ∃ i, LegalWord c i := by
  obtain ⟨h, w, y, x, op, r, g, b, rfl⟩ := exists_eq_packCmd c
  simp only [commandRows, List.mem_cons, List.not_mem_nil, or_false] at hrow
  obtain rfl | rfl | rfl | rfl | rfl | rfl | rfl := hrow
  · rw [SelectsItsRow.selects_configure, decide_eq_true_iff] at hs
    obtain ⟨rfl, rfl, rfl, rfl, rfl, rfl, rfl⟩ := hs
    exact ⟨_, .configure b⟩
  · rw [SelectsItsRow.selects_set, decide_eq_true_iff] at hs
    obtain ⟨rfl, rfl, rfl⟩ := hs
    exact ⟨_, .set y x r g b⟩
  · rw [SelectsItsRow.selects_fill, decide_eq_true_iff] at hs
    obtain rfl := hs
    exact ⟨_, .fill h w y x r g b⟩
  · rw [eq_pattern_of_selects hs]
    exact ⟨_, .clear⟩
  · rw [eq_pattern_of_selects hs]
    exact ⟨_, .getbuf⟩
  · rw [eq_pattern_of_selects hs]
    exact ⟨_, .publish⟩
  · rw [eq_pattern_of_selects hs]
    exact ⟨_, .acquire⟩

/-! ## The Refresher's turn -/

theorem fetch_refresher {s : State} (ht : nextTurn s = .refresher) :
    fetch (nextTurn s) (dropTurn s) = fetchMicroOp s := by
  rw [ht, fetch, fetchMicroOp, fetchMicroOp, dropTurn_mode, dropTurn_seq]

theorem fetchMicroOp_of_run {s : State} (hm : s.mode = .run) : fetchMicroOp s = .instr s.seq.phase.instr :=
  if_pos hm

theorem fetchMicroOp_of_not_run {s : State} (hm : s.mode ≠ .run) : fetchMicroOp s = .nothing :=
  if_neg hm

/-! ## The statements -/

/-- Settles O1: the encoding of a command is a legal word of it; a micro-operation has no operands and its one code is
run through the decoder. -/
theorem decodeOfEncodeIsTheInstruction : Obligations.DecodeOfEncodeIsTheInstruction := by
  intro i hi
  cases i with
  | configure | set | fill | clear | getbuf | publish | acquire =>
    exact decodeC96_of_legalWord (legalWord_of_encode hi rfl)
  | waitf | shdata | shclkh | shclkl | blank | latl | lath | addr | unblank | endblank | poll =>
    rfl

/-- Settles O2: a word that decodes is legal, and a phase code that decodes is the code of a phase. -/
theorem decodedCodeEncodesBack : Obligations.DecodedCodeEncodesBack := by
  intro c i hd
  cases c with
  | c96 w =>
    have hl := legalWord_of_decodeC96 hd
    exact ⟨wellFormed_of_legalWord hl, encode_of_legalWord hl⟩
  | seq4 code =>
    obtain ⟨p, rfl, rfl⟩ := exists_phase_of_decodeSeq4 hd
    exact ⟨wellFormed_instr p, encode_instr p⟩

/-- Settles O3: a legal word selects the row of its command only, and a word that selects a row is legal. -/
theorem matchAndMaskSelectTheCommand : Obligations.MatchAndMaskSelectTheCommand := by
  intro w
  refine ⟨fun i hd => selected_of_legalWord (legalWord_of_decodeC96 hd), fun why hd row hrow hs => ?_⟩
  obtain ⟨i, hl⟩ := exists_legalWord_of_selects hrow (beq_iff_eq.2 hs)
  rw [decodeC96_of_legalWord hl] at hd
  cases hd

/-- Settles O4: the decoder runs on each printed code. -/
theorem printedWordsDecode : Obligations.PrintedWordsDecode := by
  unfold Obligations.PrintedWordsDecode
  decide

/-- Settles O6. -/
theorem stepExecutesTheSelectedMicroOperation : Obligations.StepExecutesTheSelectedMicroOperation := by
  intro s
  refine ⟨fun ht hm i hd => ?_, fun ht hm => ?_, fun ht => ?_⟩
  · obtain rfl : s.seq.phase.instr = i := by
      rw [decode, decodeSeq4_code] at hd
      injection hd
    exact step_of_fetch_instr (by rw [fetch_refresher ht, fetchMicroOp_of_run hm])
  · exact step_of_fetch_nothing (by rw [fetch_refresher ht, fetchMicroOp_of_not_run hm])
  · exact step_of_fetch_nothing (by rw [ht, fetch])

end Sys2Proof.Proofs
end

section
/-! PROOF. The frame buffer commands: their encodings, what FILL, SET and CLEAR do to the memory, their answers, and
the order of the gamma table (40_framebuffer.md). -/

namespace Sys2Proof.Proofs

open Sys2Proof.Machine Sys2Proof.Claims

/-! ## Encodings -/

/-- A command that the decoder accepts where a test passes has the form of R93, if the test says that the unused fields
are zero. -/
theorem commandForm_of_whenZero {op : BitVec 8} {m : String} {zero : Cmd → Bool} {unusedZero : Cmd → Prop}
    {i : Cmd → Instr} (hd : ∀ w, cmdOp w = op → decodeC96 w = whenZero (zero w) m (i w))
    (hz : ∀ w, zero w = true ↔ unusedZero w) : CommandForm op unusedZero i := by
  intro w hop
  rw [← hz, decode, hd w hop]
  cases zero w with
  | true => exact ⟨fun _ => rfl, fun hn => absurd rfl hn⟩
  | false => exact ⟨fun hf => absurd hf Bool.false_ne_true, fun _ => ⟨_, rfl⟩⟩

theorem decodeC96_of_opSet {w : Cmd} (h : cmdOp w = 0x10) :
    decodeC96 w = whenZero (noSize w) "SET" (.set (cmdX w).toInt (cmdY w).toInt (cmdColor w)) := by
  simp [decodeC96, h]

theorem decodeC96_of_opFill {w : Cmd} (h : cmdOp w = 0x11) :
    decodeC96 w = .ok (.fill (cmdX w).toInt (cmdY w).toInt (cmdW w).toNat (cmdH w).toNat (cmdColor w)) := by
  simp [decodeC96, h]

theorem decodeC96_of_opClear {w : Cmd} (h : cmdOp w = 0x12) :
    decodeC96 w = whenZero (noColor w && noOrigin w && noSize w) "CLEAR" .clear := by
  simp [decodeC96, h]

theorem decodeC96_of_opGetbuf {w : Cmd} (h : cmdOp w = 0x13) :
    decodeC96 w = whenZero (noColor w && noOrigin w && noSize w) "GETBUF" .getbuf := by
  simp [decodeC96, h]

/-- The test of a command without operands. -/
theorem noOperands_iff (w : Cmd) : (noColor w && noOrigin w && noSize w) = true ↔ allZero w := by
  rw [Bool.and_assoc, Bool.and_eq_true, noColor_iff, noOrigin_and_noSize_iff, allZero]

/-! ## The unit rectangle -/

/-- The positions of a buffer are the pairs of its rows and columns. -/
theorem gridCells_eq_product : gridCells = List.range Config.rows ×ˢ List.range Config.cols := by
  simp only [gridCells, SProd.sprod, List.product]

theorem nodup_gridCells : gridCells.Nodup := by
  rw [gridCells_eq_product]
  exact List.nodup_range.product List.nodup_range

/-- The only pixel of the 1 by 1 rectangle is its corner. -/
theorem inRect_unit_iff (x y : Int) (c : Nat × Nat) :
    inRect x y 1 1 c.1 c.2 = true ↔ (c.1 : Int) = y ∧ (c.2 : Int) = x := by
  rw [inRect_iff]
  omega

/-- The 1 by 1 rectangle selects its corner where that is a position of the grid, and nothing otherwise. -/
theorem filter_inRect_unit (x y : Int) :
    (gridCells.filter fun c => inRect x y 1 1 c.1 c.2) = if inBounds x y then [(y.toNat, x.toNat)] else [] := by
  split
  · next hin =>
    rw [inBounds_iff] at hin
    have hcorner : ∀ c ∈ gridCells, inRect x y 1 1 c.1 c.2 = (c == (y.toNat, x.toNat)) := fun c _ => by
      rw [Bool.eq_iff_iff, inRect_unit_iff, beq_iff_eq, Prod.ext_iff]
      omega
    have hmem : (y.toNat, x.toNat) ∈ gridCells :=
      mem_gridCells.2 ⟨by simp only [Config.rows]; omega, by simp only [Config.cols]; omega⟩
    rw [List.filter_congr hcorner, List.filter_beq, List.count_eq_one_of_mem nodup_gridCells hmem,
      List.replicate_one]
  · next hout =>
    rw [inBounds_iff] at hout
    refine List.filter_eq_nil_iff.2 fun c hc hin => hout ?_
    obtain ⟨hrow, hcol⟩ := inGrid_gridCells c hc
    simp only [Config.rows, Config.cols] at hrow hcol
    rw [inRect_unit_iff] at hin
    omega

theorem fbWriteWhere_eq_foldr (b : BufId) (inside : Nat → Nat → Bool) (p : Pixel) (cells : List (Nat × Nat))
    (m : Memory) :
    fbWriteWhere b inside p cells m =
      (cells.filter fun c => inside c.1 c.2).foldr (fun c m => fbWrite b c.1 c.2 p m) m := by
  rw [List.foldr_filter, fbWriteWhere]

/-- Filling the 1 by 1 rectangle is one pixel write with the bounds test of R125. -/
theorem fbWriteWhere_unit (b : BufId) (x y : Int) (p : Pixel) (m : Memory) :
    fbWriteWhere b (inRect x y 1 1) p gridCells m = if inBounds x y then fbWrite b y.toNat x.toNat p m else m := by
  rw [fbWriteWhere_eq_foldr, filter_inRect_unit]
  split <;> rfl

/-! ## Filling and clearing -/

/-- The model's test of the rectangle, as the offsets of R122. -/
theorem inRect_iff_inRectangle (x y : Int) (w h row col : Nat) :
    inRect x y w h row col = true ↔ InRectangle x y w h row col := by
  rw [inRect_iff]
  constructor
  · rintro ⟨hx, hw, hy, hh⟩
    exact ⟨(col - x).toNat, (row - y).toNat, by omega, by omega, by omega, by omega⟩
  · rintro ⟨i, j, hi, hj, hcol, hrow⟩
    omega

/-- Filling, pixel by pixel. -/
theorem fbRead_fill (b b' : BufId) (inside : Nat → Nat → Bool) (p : Pixel) {m : Memory} (hw : Memory.wf m = true)
    {y x : Nat} (hy : y < Config.rows) (hx : x < Config.cols) :
    fbRead (fbWriteWhere b inside p gridCells m) b' y x =
      if b = b' ∧ inside y x = true then p else fbRead m b' y x := by
  rw [fbRead_fbWriteWhere b inside p inGrid_gridCells hw b' hy hx]
  simp only [mem_gridCells.2 ⟨hy, hx⟩, true_and]

theorem fbWriteWhere_idem (b : BufId) (inside : Nat → Nat → Bool) (p : Pixel) {m : Memory} (hw : Memory.wf m = true) :
    fbWriteWhere b inside p gridCells (fbWriteWhere b inside p gridCells m) = fbWriteWhere b inside p gridCells m := by
  have hw' := fbWriteWhere_wf b inside p inGrid_gridCells hw
  refine Memory.eq_of_fbRead (fbWriteWhere_wf b inside p inGrid_gridCells hw') hw' fun b' y x hy hx => ?_
  rw [fbRead_fill b b' inside p hw' hy hx, fbRead_fill b b' inside p hw hy hx]
  split <;> rfl

theorem fbClear_idem (b : BufId) (m : Memory) : fbClear b (fbClear b m) = fbClear b m := by
  rw [fbClear, fbClear, List.filter_filter]
  simp only [Bool.and_self]

/-- Clearing a buffer is filling the whole grid with the zero pixel. -/
theorem fbClear_eq_fill (b : BufId) {m : Memory} (hw : Memory.wf m = true) :
    fbClear b m = fbWriteWhere b (inRect 0 0 64 64) ⟨0, 0, 0⟩ gridCells m := by
  refine Memory.eq_of_fbRead (fbClear_wf b hw) (fbWriteWhere_wf b _ _ inGrid_gridCells hw) fun b' y x hy hx => ?_
  have hin : inRect 0 0 64 64 y x = true := by
    simp only [Config.rows, Config.cols] at hy hx
    rw [inRect_iff]
    omega
  rw [fbRead_fbClear b b' m hy hx, fbRead_fill b b' _ _ hw hy hx]
  simp only [hin, and_true]

/-! ## The answers

`completed` of the statements is the model's `respond` at the word that the codes of R97 evaluate to; the refusals of
`Laws/Step.lean` have the word 0x0200 of OWNERSHIP in that form. -/

theorem exec_set_owned {s : State} {b : BufId} (h : s.cOwn = some b) (x y : Int) (c : Color) :
    exec (.set x y c) s = .next { completed 0x0000 s with
      fb := if inBounds x y then fbWrite b y.toNat x.toNat (storedPixel c) s.fb else s.fb } := by
  refine (execSet_owned h x y c).trans ?_
  split <;> rfl

theorem exec_fill_owned {s : State} {b : BufId} (h : s.cOwn = some b) (x y : Int) (w' h' : Nat) (c : Color) :
    exec (.fill x y w' h' c) s = .next { completed 0x0000 s with
      fb := fbWriteWhere b (inRect x y w' h') (storedPixel c) gridCells s.fb } :=
  execFill_owned h x y w' h' c

theorem exec_clear_owned {s : State} {b : BufId} (h : s.cOwn = some b) :
    exec .clear s = .next { completed 0x0000 s with fb := fbClear b s.fb } :=
  execClear_owned h

/-- A buffer number in the data byte of an OK response (R97). -/
theorem respWord_ok_bufData (b : BufId) : respWord .ok (bufData b) = b.setWidth 16 := by
  revert b
  decide

theorem exec_getbuf_owned {s : State} {b : BufId} (h : s.cOwn = some b) :
    exec .getbuf s = .next (completed (b.setWidth 16) s) := by
  refine (execGetbuf_owned h).trans ?_
  rw [respond, respWord_ok_bufData, completed]

/-- A command that draws by an idempotent change `f` of the memory draws nothing the second time. -/
theorem drawsOnce {i : Instr} {b : BufId} {f : Memory → Memory} {s : State}
    (hi : ∀ s : State, s.cOwn = some b → exec i s = .next { completed 0x0000 s with fb := f s.fb })
    (hb : s.cOwn = some b) (hf : f (f s.fb) = f s.fb) :
    ∃ t u, exec i s = .next t ∧ exec i t = .next u ∧ u.fb = t.fb :=
  ⟨_, _, hi s hb, hi _ hb, hf⟩

/-- FILL draws nothing the second time. -/
theorem fill_drawsOnce {s : State} {b : BufId} (hw : Memory.wf s.fb = true) (hb : s.cOwn = some b) (x y : Int)
    (w h : Nat) (c : Color) :
    ∃ t u, exec (.fill x y w h c) s = .next t ∧ exec (.fill x y w h c) t = .next u ∧ u.fb = t.fb :=
  drawsOnce (fun _ hb' => exec_fill_owned hb' x y w h c) hb (fbWriteWhere_idem b _ _ hw)

/-! ## The order of the gamma table -/

/-- GammaMono compares one entry with the next; along the table it compares any two. -/
theorem gammaGet_mono (g : GammaTable) {u v : Byte} (h : u.toNat ≤ v.toNat) : (g.get u).toNat ≤ (g.get v).toNat := by
  obtain ⟨k, hk⟩ := Nat.exists_eq_add_of_le h
  clear h
  induction k generalizing v with
  | zero => rw [BitVec.eq_of_toNat_eq hk]
  | succ k ih =>
    have hv := v.isLt
    have hpred : (v - 1).toNat = u.toNat + k := by bv_omega
    calc (g.get u).toNat ≤ (g.get (v - 1)).toNat := ih hpred
      _ ≤ (g.get (v - 1 + 1)).toNat := g.mono (v - 1) (by omega)
      _ = (g.get v).toNat := by rw [BitVec.sub_add_cancel]

/-! ## The statements -/

/-- Settles O16: the 1 by 1 rectangle writes its corner under the bounds test of SET. -/
theorem unitFillIsSet : Obligations.UnitFillIsSet := by
  intro s x y c
  cases hb : s.cOwn with
  | none => exact (execFill_unowned hb x y 1 1 c).trans (execSet_unowned hb x y c).symm
  | some b => rw [exec_fill_owned hb, exec_set_owned hb, fbWriteWhere_unit]

/-- Settles O11: the bounds test of the model is that of the statement, and a pixel write changes its three bytes. -/
theorem setWritesOnePixel : Obligations.SetWritesOnePixel := by
  refine ⟨commandForm_of_whenZero (fun _ => decodeC96_of_opSet) noSize_iff, fun s x y c hw =>
    ⟨fun b hb => ?_, fun hn => execSet_unowned hn x y c⟩⟩
  refine ⟨_, exec_set_owned hb x y c, fun hin => ?_, fun hout => if_neg (mt (inBounds_iff x y).1 hout)⟩
  rw [if_pos ((inBounds_iff x y).2 hin)]
  have hrow : y.toNat < Config.rows := by simp only [Config.rows]; omega
  have hcol : x.toNat < Config.cols := by simp only [Config.cols]; omega
  exact ⟨fbRead_fbWrite_same b _ hrow hcol hw, fun a ha => read_fbWrite_other b _ hrow hcol hw (by omega)⟩

/-- Settles O12: filling writes the positions of the grid that the model's test of the rectangle selects. -/
theorem fillWritesTheRectangle : Obligations.FillWritesTheRectangle := by
  refine ⟨fun w hop => ⟨fun _ => decodeC96_of_opFill hop, fun hn => absurd trivial hn⟩, fun s x y w h c hw =>
    ⟨fun b hb => ?_, fun hn => execFill_unowned hn x y w h c⟩⟩
  refine ⟨_, exec_fill_owned hb x y w h c, fun row col hrow hcol hin => ?_, fun a ha => ?_⟩
  · rw [fbRead_fill b b _ _ hw hrow hcol, if_pos ⟨rfl, (inRect_iff_inRectangle x y w h row col).2 hin⟩]
    rfl
  · refine read_fbWriteWhere_other b _ _ inGrid_gridCells hw fun q hq hin => ?_
    obtain ⟨hrow, hcol⟩ := inGrid_gridCells q hq
    have hapart := ha q.1 q.2 hrow hcol ((inRect_iff_inRectangle x y w h q.1 q.2).1 hin)
    omega

/-- Settles O13: clearing is known byte by byte, and the pixels of the grid lie in their buffer. -/
theorem clearZeroesTheOwnedBuffer : Obligations.ClearZeroesTheOwnedBuffer := by
  refine ⟨commandForm_of_whenZero (fun _ => decodeC96_of_opClear) noOperands_iff, fun s =>
    ⟨fun b hb => ?_, execClear_unowned⟩⟩
  refine ⟨_, exec_clear_owned hb, fun row col hrow hcol => ?_, fun a ha => ?_⟩
  · rw [fbRead_fbClear b b s.fb hrow hcol, if_pos rfl]
  · rw [read_fbClear, if_neg]
    rw [inBuffer_iff]
    omega

/-- Settles O14. -/
theorem getbufNamesTheOwnedBuffer : Obligations.GetbufNamesTheOwnedBuffer :=
  ⟨commandForm_of_whenZero (fun _ => decodeC96_of_opGetbuf) noOperands_iff, fun _ =>
    ⟨fun _ => exec_getbuf_owned, execGetbuf_unowned⟩⟩

/-- Settles O15: black is stored as the zero pixel by GammaZero, and the rectangle is the whole grid. -/
theorem clearIsTheBlackFill : Obligations.ClearIsTheBlackFill := by
  intro s hw
  cases hb : s.cOwn with
  | none => exact (execClear_unowned hb).trans (execFill_unowned hb 0 0 64 64 _).symm
  | some b => rw [exec_clear_owned hb, exec_fill_owned hb, storedPixel_black, fbClear_eq_fill b hw]

/-- Settles O17: SET is the 1 by 1 FILL, and the changes that FILL and CLEAR make to the memory are idempotent. -/
theorem drawingIsIdempotent : Obligations.DrawingIsIdempotent := by
  rintro s b i hw hb (⟨x, y, c, rfl⟩ | ⟨x, y, w, h, c, rfl⟩ | rfl)
  · simpa only [unitFillIsSet _ x y c] using fill_drawsOnce hw hb x y 1 1 c
  · exact fill_drawsOnce hw hb x y w h c
  · exact drawsOnce (fun _ => exec_clear_owned) hb (fbClear_idem b s.fb)

/-- Settles O18, by the order of the gamma table. -/
theorem brighterValueIsOnWhereDarkerIs : Obligations.BrighterValueIsOnWhereDarkerIs := by
  intro u v t huv hon
  rw [isOn_iff] at hon ⊢
  exact hon.trans (gammaGet_mono Config.gamma huv)

end Sys2Proof.Proofs
end

section
/-! PROOF. The brightness encoder: CONFIGURE and its registers, the thresholds of a bit depth and the levels at which a
stored intensity is ON (41_brightness_encoder.md). -/

namespace Sys2Proof.Proofs

open Sys2Proof.Machine Sys2Proof.Safety Sys2Proof.Claims

/-! ## CONFIGURE -/

theorem decodeC96_of_opConfigure {w : Cmd} (h : cmdOp w = 0x01) :
    decodeC96 w = whenZero (noHighColor w && noOrigin w && noSize w) "CONFIGURE" (.configure (cmdB w).toNat) := by
  simp [decodeC96, h]

/-- The test of a command whose one operand is in cmd[7:0]. -/
theorem onlyLowByte_iff (w : Cmd) : (noHighColor w && noOrigin w && noSize w) = true ↔
    w.extractLsb' 8 16 = 0 ∧ w.extractLsb' 32 64 = 0 := by
  rw [Bool.and_assoc, Bool.and_eq_true, noHighColor_iff, noOrigin_and_noSize_iff]

theorem exec_configure_refused {s : State} (hm : s.mode ≠ .unconf) (d : Nat) :
    exec (.configure d) s = .next (completed 0x0400 s) :=
  if_pos hm

theorem exec_configure_accepted {s : State} {d : Nat} (hm : s.mode = .unconf) (h1 : 1 ≤ d) (h8 : d ≤ 8) :
    exec (.configure d) s = .next (completed 0x0000 (setBrightness d s)) :=
  (if_neg (not_not_intro hm)).trans (if_pos ⟨h1, h8⟩)

theorem exec_configure_failed {s : State} {d : Nat} (hm : s.mode = .unconf) (hd : ¬(1 ≤ d ∧ d ≤ 8)) :
    exec (.configure d) s = .next { completed 0x0100 s with mode := .cfgErr } :=
  (if_neg (not_not_intro hm)).trans (if_neg hd)

/-! ## The configuration registers -/

/-- The registers of a configured engine belong to its bit depth (R25, R26, R27). -/
theorem brightness_of_configOk {s : State} (hm : s.mode = .run) (h : configOk s = true) :
    s.bitDepth.toNat ≤ 8 ∧ s.brightnessStep.toNat = stepOfDepth s.bitDepth.toNat ∧
      s.brightnessCount.toNat = countOfDepth s.bitDepth.toNat := by
  simp only [configOk, hm, brightnessOf, Bool.and_eq_true, decide_eq_true_eq, beq_iff_eq] at h
  obtain ⟨⟨-, hd⟩, ⟨-, hs⟩, hc⟩ := h
  exact ⟨hd, hs, hc⟩

/-- An accepted depth and its step and count fit their registers. -/
theorem toNat_setBrightness {d : Nat} (h1 : 1 ≤ d) (h8 : d ≤ 8) (s : State) :
    (setBrightness d s).bitDepth.toNat = d ∧ (setBrightness d s).brightnessStep.toNat = stepOfDepth d ∧
      (setBrightness d s).brightnessCount.toNat = countOfDepth d := by
  have hd : (setBrightness d s).bitDepth.toNat = d := by
    rw [setBrightness_bitDepth, BitVec.toNat_ofNat, Nat.mod_eq_of_lt (by omega)]
  obtain ⟨-, hs, hc⟩ := brightness_of_configOk (setBrightness_mode d s) (configOk_setBrightness h1 h8 s)
  rw [hd] at hs hc
  exact ⟨hd, hs, hc⟩

/-! ## The thresholds -/

theorem stepOfDepth_pos (d : Nat) : 0 < stepOfDepth d := Nat.two_pow_pos _

/-- The levels of a depth, counted from 0, divide the 256 intensities evenly. -/
theorem two_pow_mul_stepOfDepth {d : Nat} (h8 : d ≤ 8) : 2 ^ d * stepOfDepth d = 256 := by
  rw [stepOfDepth, ← pow_add, Nat.add_sub_of_le h8]
  rfl

/-- No level of a cycle reaches the clamp of R144. -/
theorem level_mul_step_le {d l : Nat} (h8 : d ≤ 8) (hl : l ≤ countOfDepth d) : l * stepOfDepth d ≤ 255 := by
  have hlt : l < 2 ^ d := Nat.lt_of_le_pred (Nat.two_pow_pos d) hl
  have hmul := Nat.mul_lt_mul_of_pos_right hlt (stepOfDepth_pos d)
  rw [two_pow_mul_stepOfDepth h8] at hmul
  exact Nat.le_of_lt_succ hmul

theorem toNat_threshold {d l : Nat} (h8 : d ≤ 8) (hl : l ≤ countOfDepth d) :
    (BitVec.ofNat 8 (thresholdNat l (stepOfDepth d))).toNat = l * stepOfDepth d := by
  rw [BitVec.toNat_ofNat, Nat.mod_eq_of_lt (Nat.lt_succ_of_le (thresholdNat_le _ _)), thresholdNat,
    Nat.min_eq_left (level_mul_step_le h8 hl)]

/-- THRESH of a configured engine, at the levels up to the last one of a cycle. -/
theorem toNat_thresh {s : State} (hm : s.mode = .run) (h : configOk s = true)
    (hl : s.seq.level.toNat ≤ s.brightnessCount.toNat) :
    (thresh s).toNat = s.seq.level.toNat * s.brightnessStep.toNat := by
  obtain ⟨hd, hs, hc⟩ := brightness_of_configOk hm h
  rw [hc] at hl
  rw [thresh, hs, toNat_threshold hd hl]

/-! ## ON and OFF -/

/-- A stored intensity is ON at level `l` exactly if `l` is at most its top `d` bits. -/
theorem isOn_threshold_iff {d l : Nat} (h8 : d ≤ 8) (hl : l ≤ countOfDepth d) (v : Byte) :
    isOn v (BitVec.ofNat 8 (thresholdNat l (stepOfDepth d))) = true ↔ l ≤ v.toNat >>> (8 - d) := by
  rw [isOn_iff, toNat_threshold h8 hl, Nat.shiftRight_eq_div_pow, ← stepOfDepth,
    Nat.le_div_iff_mul_le (stepOfDepth_pos d)]

/-- The top `d` bits of a byte name a level of the cycle, or 0. -/
theorem topBits_le {d : Nat} (h8 : d ≤ 8) (v : Byte) : v.toNat >>> (8 - d) ≤ countOfDepth d := by
  have hlt : v.toNat / stepOfDepth d < 2 ^ d := by
    rw [Nat.div_lt_iff_lt_mul (stepOfDepth_pos d), two_pow_mul_stepOfDepth h8]
    exact v.isLt
  rw [Nat.shiftRight_eq_div_pow]
  exact Nat.le_pred_of_lt hlt

theorem isOn_full (t : Byte) : isOn 255 t = true :=
  (isOn_iff 255 t).2 (Nat.le_of_lt_succ t.isLt)

theorem isOn_zero_iff (t : Byte) : isOn 0 t = true ↔ t.toNat = 0 :=
  (isOn_iff 0 t).trans Nat.le_zero

/-- The levels 1 to `n` that are at most `k` are `k` of them. -/
theorem length_filter_le_range' {k n : Nat} (hk : k ≤ n) :
    ((List.range' 1 n).filter fun l => decide (l ≤ k)).length = k := by
  have hIco : ((List.Ico 1 (n + 1)).filter fun l => decide (l < k + 1)).length = k := by
    rw [List.Ico.filter_lt, List.Ico.length]
    omega
  simpa only [List.Ico, Nat.add_sub_cancel, Nat.lt_succ_iff] using hIco

/-! ## The statements -/

/-- Settles O19: the three cases of R140, and the registers of an accepted depth. -/
theorem configureActsOnceAndChecksTheDepth : Obligations.ConfigureActsOnceAndChecksTheDepth := by
  refine ⟨commandForm_of_whenZero (fun _ => decodeC96_of_opConfigure) onlyLowByte_iff, fun s d =>
    ⟨fun hm => exec_configure_refused hm d, fun hm h1 h8 => ?_, fun hm hd => exec_configure_failed hm (by omega)⟩⟩
  obtain ⟨hd, hs, hc⟩ := toNat_setBrightness h1 h8 s
  exact ⟨_, exec_configure_accepted hm h1 h8, hd, hs, hc, rfl⟩

/-- Settles O21: no level of a configured engine is clamped, and neither is the next one up to the last. -/
theorem thresholdsRiseAndNeverClamp : Obligations.ThresholdsRiseAndNeverClamp := by
  intro s hcfg hm hl
  obtain ⟨-, hle⟩ := of_decide_eq_true hl
  have hthresh := toNat_thresh hm hcfg hle
  obtain ⟨-, hstep, -⟩ := brightness_of_configOk hm hcfg
  refine ⟨hthresh, fun hlt => ?_, hstep ▸ stepOfDepth_pos _⟩
  have hnext : (s.seq.level + 1).toNat = s.seq.level.toNat + 1 := by
    have := s.brightnessCount.isLt
    bv_omega
  rw [toNat_thresh (s := { s with seq := { s.seq with level := s.seq.level + 1 } }) hm hcfg (hnext.trans_le hlt),
    hnext, hthresh, Nat.succ_mul]

/-- Settles O22: the levels at which the intensity is ON are counted as those up to its top bits. -/
theorem onAtAsManyLevelsAsTheTopBits : Obligations.OnAtAsManyLevelsAsTheTopBits := by
  intro d v _ h8
  refine ⟨fun l _ hl => isOn_threshold_iff h8 hl v, ?_⟩
  have hon : ∀ l ∈ List.range' 1 (countOfDepth d),
      isOn v (BitVec.ofNat 8 (thresholdNat l (stepOfDepth d))) = decide (l ≤ v.toNat >>> (8 - d)) := fun l hmem => by
    have hl := List.mem_range'_1.1 hmem
    exact Bool.eq_iff_iff.2 ((isOn_threshold_iff h8 (by omega) v).trans decide_eq_true_iff.symm)
  exact (congrArg List.length (List.filter_congr hon)).trans (length_filter_le_range' (topBits_le h8 v))

/-- Settles O23: by GammaFull and GammaZero, and no threshold of a level is 0. -/
theorem fullScaleIsOnAndBlackIsOff : Obligations.FullScaleIsOnAndBlackIsOff := by
  intro d l _ h8 h1 hl
  rw [Config.gamma.full, Config.gamma.zero]
  refine ⟨isOn_full _, Bool.eq_false_iff.2 fun hon => ?_⟩
  have hzero := (isOn_zero_iff _).1 hon
  rw [← stepOfDepth, toNat_threshold h8 hl] at hzero
  exact (Nat.mul_pos h1 (stepOfDepth_pos d)).ne' hzero

/-- Settles O20: the table lists the step and the count of each accepted depth. -/
theorem stepAndCountOfEveryDepth : Obligations.StepAndCountOfEveryDepth := by
  intro s hm q hq
  obtain ⟨h1, h8, hstep, hcount⟩ :
      1 ≤ q.1 ∧ q.1 ≤ 8 ∧ stepOfDepth q.1 = q.2.1 ∧ countOfDepth q.1 = q.2.2 := by
    revert q
    decide
  obtain ⟨hd, hs, hc⟩ := toNat_setBrightness h1 h8 s
  exact ⟨_, exec_configure_accepted hm h1 h8, hd, hs.trans hstep, hc.trans hcount⟩

end Sys2Proof.Proofs
end

section
/-! PROOF. The line discipline of the trace, the finality of the two errors, and when the Refresher's buffer changes
(42_panel_driver.md section 5, 60_exceptions.md section 5, 43_buffer_exchange.md section 3). -/

namespace Sys2Proof.Proofs

open Sys2Proof.Machine Sys2Proof.Safety

/-! ## What a step moves -/

/-- A next state is the turn taken, a command's, or the selected micro-operation's. -/
theorem moves_of_step {s t : State} (h : step s = .next t) :
    t = dropTurn s ∨ (nextTurn s = .compositor ∧ CommandMove (dropTurn s) t) ∨
      (nextTurn s = .refresher ∧ s.mode = .run ∧ ScanMove (dropTurn s) t) := by
  obtain ⟨-, hf⟩ | ⟨t', ht, hmove⟩ := step_moves s
  · rw [hf] at h; cases h
  · obtain rfl : t' = t := by rw [ht] at h; injection h
    exact hmove

/-- No command moves the Refresher (R246). -/
theorem refresher_commandMove {s t : State} (hc : CommandMove s t) :
    t.seq = s.seq ∧ t.pins = s.pins ∧ t.trace = s.trace ∧ t.rOwn = s.rOwn := by
  cases hc with
  | held | answer | configured | configError | drawn | published | acquired => exact ⟨rfl, rfl, rfl, rfl⟩

/-- No command halts the engine, and none brings it out of HALTED. -/
theorem halted_commandMove {s t : State} (hc : CommandMove s t) : t.mode = .halted ↔ s.mode = .halted := by
  cases hc with
  | configured _ hm | configError hm => simp [hm]
  | held | answer | drawn | published | acquired => exact Iff.rfl

/-! ## The errors are final (R243) -/

/-- From an error a step answers a next state in the same error, and the Refresher has not moved. -/
theorem step_of_error {s : State} (hm : s.mode = .cfgErr ∨ s.mode = .halted) :
    ∃ t, step s = .next t ∧ t.mode = s.mode ∧ t.seq = s.seq ∧ t.pins = s.pins ∧ t.trace = s.trace ∧
      t.rOwn = s.rOwn := by
  obtain h | ⟨-, -, h⟩ | ⟨-, w, rest, i, -, hd, h⟩ | ⟨-, hr, -⟩ := step_cases s
  · exact ⟨_, h, by simp⟩
  · exact ⟨_, h, by simp⟩
  · obtain ⟨t, ht, hc⟩ := exec_command hd (dropTurn s)
    obtain ⟨hseq, hpins, htrace, hown⟩ := refresher_commandMove hc
    obtain ⟨hmode | ⟨hu, -⟩ | ⟨hu, -⟩, -⟩ := modeMove_commandMove hc
    · exact ⟨t, h.trans ht, by simp [hmode, hseq, hpins, htrace, hown]⟩
    all_goals simp [dropTurn_mode s ▸ hu] at hm
  · simp [hr] at hm

/-! ## The trace grows at its end -/

theorem levelsAfter_append (p : Pins) (xs ys : List LineEvent) :
    levelsAfter p (xs ++ ys) = levelsAfter (levelsAfter p xs) ys := by
  induction xs generalizing p with
  | nil => rfl
  | cons e xs ih => exact ih e.pins

theorem traceOkFrom_append (p : Pins) (xs ys : List LineEvent) :
    traceOkFrom p (xs ++ ys) = (traceOkFrom p xs && traceOkFrom (levelsAfter p xs) ys) := by
  induction xs generalizing p with
  | nil => rfl
  | cons e xs ih =>
    rw [List.cons_append, traceOkFrom, ih, traceOkFrom, levelsAfter, Bool.and_assoc]

/-! ## The levels of the lines -/

/-- Every field is wide enough for 0. -/
@[simp] theorem getField_setField_zero (f : Field) (p : Pins) : getField f (setField f 0#6 p) = 0#6 :=
  getField_setField_same (by cases f <;> decide) p

/-- Every field is wide enough for 1. -/
@[simp] theorem getField_setField_one (f : Field) (p : Pins) : getField f (setField f 1#6 p) = 1#6 :=
  getField_setField_same (by cases f <;> decide) p

theorem levelsOk_iff (s : State) : levelsOk s = true ↔
    getField .clk s.pins = clkAt s.seq.phase ∧ getField .lat s.pins = latAt s.seq.phase ∧
      getField .oe s.pins = oeAt s.seq ∧ addrOk s = true := by
  simp only [levelsOk, Bool.and_eq_true, beq_iff_eq, and_assoc]

@[simp] theorem inPhase_phase (q : Seq) (p : Phase) : (q.inPhase p).phase = p := rfl
@[simp] theorem inPhase_row (q : Seq) (p : Phase) : (q.inPhase p).row = q.row := rfl
@[simp] theorem firstVisit_inPhase (q : Seq) (p : Phase) : firstVisit (q.inPhase p) = firstVisit q := rfl
@[simp] theorem litRow_inPhase (q : Seq) (p : Phase) : litRow (q.inPhase p) = litRow q := rfl

/-- The levels at the start of a cycle are those of WAITF and POLL: the first row visit is blanked (R172). -/
theorem levelsOk_cycleStart {s t : State} (hp : s.seq.phase = .waitf ∨ s.seq.phase = .poll) (h : levelsOk s = true)
    (hq : t.seq = cycleStart) (hpins : t.pins = s.pins) : levelsOk t = true := by
  rw [levelsOk_iff] at h ⊢
  rw [hq, hpins]
  obtain hp | hp := hp <;>
    simpa [hp, hq, clkAt, latAt, oeAt, addrOk, cycleStart, firstVisit] using h

/-- SHCLKL ends the pulse of CLK, and the visit goes on with the same levels. -/
theorem levelsOk_afterClock {s t : State} (hp : s.seq.phase = .shclkl) (h : levelsOk s = true)
    (hq : t.seq = afterClock s.seq) (hpins : t.pins = setField .clk 0 s.pins) : levelsOk t = true := by
  rw [levelsOk_iff] at h ⊢
  unfold afterClock at hq
  split at hq <;>
    simpa [hp, hq, hpins, clkAt, latAt, oeAt, addrOk, firstVisit, litRow, Seq.inPhase, getField_setField_other]
      using h.2

/-- UNBLANK lights the row whose number ADDR holds: the row before the one that is shifted next. -/
theorem levelsOk_afterUnblank {s t : State} (hp : s.seq.phase = .unblank) (hlev : levelInRange s = true)
    (h : levelsOk s = true) (hq : t.seq = afterUnblank s.brightnessCount s.seq)
    (hpins : t.pins = setField .oe 0 s.pins) : levelsOk t = true := by
  rw [levelsOk_iff] at h ⊢
  obtain ⟨hclk, hlat, -, haddr⟩ := h
  simp only [levelInRange, decide_eq_true_eq] at hlev
  have hclk' : getField .clk t.pins = 0 := by simpa [hpins, getField_setField_other, hp, clkAt] using hclk
  have hlat' : getField .lat t.pins = 1 := by simpa [hpins, getField_setField_other, hp, latAt] using hlat
  have haddr' : getField .addr t.pins = s.seq.row.setWidth 6 := by
    simpa [hpins, getField_setField_other, hp, addrOk] using haddr
  have hoe' : getField .oe t.pins = 0 := by simp [hpins]
  unfold afterUnblank at hq
  split at hq
  · next hrow =>
    have hne : s.seq.row + 1#5 ≠ 0#5 := by simp only [Config.addressableRows] at hrow; bv_omega
    simp [hq, hclk', hlat', hoe', haddr', clkAt, latAt, oeAt, addrOk, firstVisit, litRow, hne]
  · next hrow =>
    have hlast : s.seq.row = 31 := by simp only [Config.addressableRows] at hrow; bv_omega
    split at hq
    · have hne : s.seq.level ≠ 0#8 := by bv_omega
      simp [hq, hclk', hlat', hoe', haddr', clkAt, latAt, oeAt, addrOk, firstVisit, litRow, hne, hlast]
    · simp [hq, hclk', hlat', hoe', haddr', clkAt, latAt, oeAt, addrOk, Seq.inPhase]

/-- The field, the value and the position after the line write of each phase (the table of R101); the value of RGB is
any. -/
theorem lineMove_write {s : State} {f : Field} {v : FieldVal} {next : Seq} (hl : lineMove s = some (f, v, next)) :
    (s.seq.phase, f, v, next) ∈ [(.shdata, .rgb, v, s.seq.inPhase .shclkh), (.shclkh, .clk, 1, s.seq.inPhase .shclkl),
      (.shclkl, .clk, 0, afterClock s.seq), (.blank, .oe, 1, s.seq.inPhase .latl),
      (.latl, .lat, 0, s.seq.inPhase .lath), (.lath, .lat, 1, s.seq.inPhase .addr),
      (.addr, .addr, s.seq.row.setWidth 6, s.seq.inPhase .unblank),
      (.unblank, .oe, 0, afterUnblank s.brightnessCount s.seq), (.endblank, .oe, 1, s.seq.inPhase .poll)] := by
  unfold lineMove at hl
  cases hp : s.seq.phase <;> simp only [hp] at hl
  case waitf | poll => cases hl
  case shdata =>
    obtain ⟨b, -, he⟩ := Option.map_eq_some_iff.1 hl
    simp only [Prod.mk.injEq] at he
    simp [he.1, he.2.2]
  all_goals
    simp only [Option.some.injEq, Prod.mk.injEq] at hl
    simp [hl]

/-- The line write of a phase obeys the line discipline. -/
theorem eventOk_lineMove {s : State} {f : Field} {v : FieldVal} {next : Seq} (h : levelsOk s = true)
    (hl : lineMove s = some (f, v, next)) : eventOk s.pins ⟨f, setField f v s.pins⟩ = true := by
  obtain ⟨hclk, hlat, hoe, -⟩ := (levelsOk_iff s).1 h
  have hw := lineMove_write hl
  simp only [eventOk, setField_getField_setField, beq_self_eq_true, Bool.true_and]
  cases hp : s.seq.phase <;> simp only [hp, List.mem_cons, List.not_mem_nil, Prod.mk.injEq, reduceCtorEq, true_and,
    false_and, false_or, or_false] at hw
  case shdata => simp [hw, hclk, hp, clkAt]
  all_goals
    obtain ⟨rfl, rfl, -⟩ := hw
    simp [hclk, hlat, hoe, hp, clkAt, latAt, oeAt]

/-- The levels after the line write of a phase belong to the position after it. -/
theorem levelsOk_lineMove {s t : State} {f : Field} {v : FieldVal} (hseq : seqOk s = true) (h : levelsOk s = true)
    (hl : lineMove s = some (f, v, t.seq)) (hpins : t.pins = setField f v s.pins) : levelsOk t = true := by
  have hlev := (levelsOk_iff s).1 h
  have hw := lineMove_write hl
  cases hp : s.seq.phase <;> simp only [hp, List.mem_cons, List.not_mem_nil, Prod.mk.injEq, reduceCtorEq, true_and,
    false_and, false_or, or_false] at hw
  case shclkl =>
    obtain ⟨rfl, rfl, hq⟩ := hw
    exact levelsOk_afterClock hp h hq hpins
  case unblank =>
    obtain ⟨rfl, rfl, hq⟩ := hw
    simp only [seqOk, hp, Bool.and_eq_true] at hseq
    exact levelsOk_afterUnblank hp hseq.1 h hq hpins
  all_goals
    simp only [hp, clkAt, latAt, oeAt, addrOk, reduceCtorEq, if_true, if_false, Bool.or_eq_true, beq_iff_eq] at hlev
    simp [levelsOk_iff, hpins, hw, getField_setField_other, clkAt, latAt, oeAt, addrOk, hlev]

/-! ## The line discipline under every step (R178) -/

/-- Where the lines, the trace and the position stay, and MODE does not leave HALTED, so does the line discipline. -/
theorem lineInv_of_eq {s t : State} (h : LineInv s) (hq : t.seq = s.seq) (hpins : t.pins = s.pins)
    (htr : t.trace = s.trace) (hm : s.mode = .halted → t.mode = .halted) : LineInv t := by
  obtain ⟨htrace, hlive⟩ := h
  refine ⟨htr ▸ htrace, fun hrun => ?_⟩
  obtain ⟨hlast, hlev⟩ := hlive (mt hm hrun)
  refine ⟨by rw [hpins, htr, hlast], ?_⟩
  simpa only [levelsOk, addrOk, hq, hpins] using hlev

/-- A line write that succeeds keeps the line discipline. -/
theorem lineInv_lineWritten {s : State} {f : Field} {v : FieldVal} {next : Seq} (hseq : seqOk s = true)
    (hm : s.mode = .run) (h : LineInv s) (hl : lineMove s = some (f, v, next)) :
    LineInv (lineWritten f v next s) := by
  obtain ⟨htrace, hlive⟩ := h
  obtain ⟨hlast, hlev⟩ := hlive (by simp [hm])
  have hevent := eventOk_lineMove hlev hl
  refine ⟨?_, fun _ => ⟨?_, levelsOk_lineMove hseq hlev hl rfl⟩⟩
  · rw [lineWritten, traceOkFrom_append, htrace, ← hlast, traceOkFrom, hevent]
    rfl
  · simp [levelsAfter_append, levelsAfter]

/-- The start of a cycle keeps the line discipline. -/
theorem lineInv_cycleStart {s t : State} (hp : s.seq.phase = .waitf ∨ s.seq.phase = .poll) (h : LineInv s)
    (hq : t.seq = cycleStart) (hpins : t.pins = s.pins) (htr : t.trace = s.trace) (hm : t.mode = s.mode) :
    LineInv t := by
  obtain ⟨htrace, hlive⟩ := h
  refine ⟨htr ▸ htrace, fun hrun => ?_⟩
  obtain ⟨hlast, hlev⟩ := hlive (hm ▸ hrun)
  exact ⟨by rw [hpins, htr, hlast], levelsOk_cycleStart hp hlev hq hpins⟩

/-- The selected micro-operation of a running Refresher keeps the line discipline. -/
theorem lineInv_scanMove {s t : State} (hseq : seqOk s = true) (hm : s.mode = .run) (h : LineInv s)
    (hc : ScanMove s t) : LineInv t := by
  have hd : LineInv (dropAnswer s) := lineInv_of_eq h (by simp) (by simp) (by simp) (by simp)
  cases hc with
  | held => exact h
  | written f v next hl =>
    exact lineInv_lineWritten (by simpa [seqOk, levelInRange, lastRow, lastCol] using hseq) (by simpa using hm) hd
      (by simpa using hl)
  | failed => exact ⟨by simpa using h.1, fun hrun => absurd rfl hrun⟩
  | again hp => exact lineInv_cycleStart (.inr hp) h rfl rfl rfl rfl
  | swapped _ _ hp => exact lineInv_cycleStart hp h rfl rfl rfl rfl

/-! ## The Refresher's buffer (R176) -/

/-- Only the swap changes R_OWN or fills TO_C (R205). -/
theorem swap_of_scanMove {s t : State} (hc : ScanMove s t) (h : t.rOwn ≠ s.rOwn ∨ (s.toC = none ∧ t.toC ≠ none)) :
    (s.seq.phase = .waitf ∨ s.seq.phase = .poll) ∧ t.seq = cycleStart ∧ t.rOwn = s.toR ∧ t.toC = s.rOwn ∧
      t.toR = none := by
  cases hc with
  | held | again => simp at h
  | written | failed => simp at h
  | swapped n old hp hn ho => exact ⟨hp, rfl, hn.symm, ho.symm, rfl⟩

/-- No command fills TO_C. -/
theorem toC_commandMove {s t : State} (hc : CommandMove s t) (h : s.toC = none) : t.toC = none := by
  cases hc with
  | acquired => rfl
  | held | answer | configured | configError | drawn | published => exact h

/-! ## The statements -/

/-- Settles O46, move by move: a step writes a line in the order of the discipline, or leaves the lines alone. -/
theorem stepKeepsTheLineDiscipline : Obligations.StepKeepsTheLineDiscipline := by
  intro s t hinv h hst
  have hd : LineInv (dropTurn s) := lineInv_of_eq h (by simp) (by simp) (by simp) (by simp)
  obtain rfl | ⟨-, hc⟩ | ⟨-, hm, hc⟩ := moves_of_step hst
  · exact hd
  · obtain ⟨hseq, hpins, htrace, -⟩ := refresher_commandMove hc
    exact lineInv_of_eq hd hseq hpins htrace (halted_commandMove hc).2
  · obtain ⟨-, -, hseq, -⟩ := inv_dropTurn hinv
    exact lineInv_scanMove hseq (by rw [dropTurn_mode, hm]) hd hc

/-- Settles O50, by induction on the number of steps. -/
theorem errorsAreFinal : Obligations.ErrorsAreFinal := by
  intro k
  induction k with
  | zero => exact fun s _ => ⟨s, rfl, rfl, rfl, rfl, rfl, rfl⟩
  | succ k ih =>
    intro s hm
    obtain ⟨t, ht, hmode, hseq, hpins, htrace, hown⟩ := step_of_error hm
    obtain ⟨u, hu, hrest⟩ := ih t (hmode ▸ hm)
    refine ⟨u, (runSteps_succ k ht).trans hu, ?_⟩
    rwa [hmode, hseq, hpins, htrace, hown] at hrest

/-- Settles O53: of all moves only the swap meets the premise. -/
theorem framesChangeOnlyBetweenCycles : Obligations.FramesChangeOnlyBetweenCycles := by
  intro s t hst h
  obtain rfl | ⟨-, hc⟩ | ⟨hn, hm, hc⟩ := moves_of_step hst
  · simp at h
  · obtain ⟨-, -, -, hown⟩ := refresher_commandMove hc
    obtain hne | ⟨hnone, hsome⟩ := h
    · exact absurd (by simpa using hown) hne
    · exact absurd (toC_commandMove hc (by simpa using hnone)) hsome
  · exact ⟨hn, hm, by simpa [cycleStart] using swap_of_scanMove hc (by simpa using h)⟩

end Sys2Proof.Proofs
end

section
/-! PROOF. The micro-operations one by one: the line each of them drives, its next position, and what a failed write
and a micro-operation that is not enabled leave (42_panel_driver.md sections 1 to 4). -/

namespace Sys2Proof.Proofs

open Sys2Proof.Machine Sys2Proof.Claims

/-! ## One enabled micro-operation -/

/-- `answered` of the statements is the oracle's bookkeeping of the model. -/
theorem dropAnswer_eq_answered (s : State) : dropAnswer s = answered s := by
  cases h : s.pinAnswers <;> simp [dropAnswer, answered, h]

/-- A line write that the oracle lets succeed (R163). -/
theorem lineMicroOp_eq_lineDone {p : Phase} {s : State} (hm : s.mode = .run) (hp : s.seq.phase = p)
    (ha : pinAnswer s = .ok) (f : Field) (v : FieldVal) (next : Seq) :
    lineMicroOp p f v next s = lineDone f (setField f v s.pins) next s := by
  rw [lineMicroOp_ok hm hp ha, lineWritten, dropAnswer_pins, dropAnswer_trace, dropAnswer_eq_answered]
  rfl

/-- A line write that the oracle lets fail (R239). -/
theorem lineMicroOp_eq_lineHalted {p : Phase} {s : State} {left : FieldVal} (hm : s.mode = .run)
    (hp : s.seq.phase = p) (ha : pinAnswer s = .failed left) (f : Field) (v : FieldVal) (next : Seq) :
    lineMicroOp p f v next s = lineHalted (setField f left s.pins) s := by
  rw [lineMicroOp_failed hm hp ha, raisePinError, dropAnswer_pins, dropAnswer_eq_answered]
  rfl

/-- A micro-operation that is not enabled (R161). -/
theorem lineMicroOp_of_not_enabled {p : Phase} {s : State} (h : ¬(s.mode = .run ∧ s.seq.phase = p)) (f : Field)
    (v : FieldVal) (next : Seq) : lineMicroOp p f v next s = s :=
  if_neg (mt enabled_iff.1 h)

/-- A field write leaves the lines outside the field alone. -/
theorem setField_outside (f : Field) (v : FieldVal) (p : Pins) : setField f v p &&& ~~~f.mask = p &&& ~~~f.mask := by
  ext k
  simp only [setField, BitVec.getElem_and, BitVec.getElem_or, BitVec.getElem_not]
  cases f.mask[k] <;> simp

/-- Writing 0 to a field clears its lines. -/
theorem setField_zero (f : Field) (p : Pins) : setField f 0 p = p &&& ~~~f.mask := by
  simp [setField]

/-- Writing 1 to a field of one line sets it. -/
theorem setField_one {f : Field} (h : f.mask = (1 : Pins) <<< f.low) (p : Pins) : setField f 1 p = p ||| f.mask := by
  have hv : (1 : FieldVal).setWidth 14 = 1 := rfl
  rw [setField, hv, ← h, BitVec.and_self]
  ext k
  simp only [BitVec.getElem_and, BitVec.getElem_or, BitVec.getElem_not]
  cases f.mask[k] <;> simp

/-- A meaning that is a line write drives its line: the write of the value `v` makes the levels `newPins`. -/
theorem drivesLine_of_lineMicroOp {i : Instr} {code : BitVec 4} {p : Phase} {f : Field} {newPins : State → Pins}
    {v : State → FieldVal} {next : State → Seq} (hcode : decode (.seq4 code) = .ok i)
    (hexec : ∀ s, exec i s = .next (lineMicroOp p f (v s) (next s) s))
    (hpins : ∀ s, setField f (v s) s.pins = newPins s) : DrivesLine i code p f f.mask newPins next := by
  refine ⟨hcode, fun s hm hp => ⟨fun ha => ?_, fun left ha => ?_⟩⟩
  · rw [hexec, lineMicroOp_eq_lineDone hm hp ha, hpins]
  · exact ⟨_, setField_outside f left s.pins, by rw [hexec, lineMicroOp_eq_lineHalted hm hp ha]⟩

/-! ## The values of the two wide fields -/

/-- The six colour lines are the lowest six bits. -/
theorem setField_rgb (v : FieldVal) (p : Pins) :
    setField .rgb v p = (p &&& ~~~(0x003F : Pins)) ||| v.setWidth 14 := by
  have hmask : v.setWidth 14 &&& (0x003F : Pins) = v.setWidth 14 := by
    ext k hk
    interval_cases k <;> simp
  rw [setField, Field.low, Field.mask, BitVec.shiftLeft_zero, hmask]

/-- The row number fits the five address lines. -/
theorem setField_addr (r : BitVec 5) (p : Pins) :
    setField .addr (r.setWidth 6) p = (p &&& ~~~(0x07C0 : Pins)) ||| (r.setWidth 14 <<< 6) := by
  have hmask : (r.setWidth 6).setWidth 14 <<< 6 &&& (0x07C0 : Pins) = r.setWidth 14 <<< 6 := by
    ext k hk
    interval_cases k <;> simp
  rw [setField, Field.low, Field.mask, hmask]

/-! ## The statements -/

/-- Settles O25: the six bits of the lanes are the six comparisons of R162 with THRESH. -/
theorem shdataDrivesTheSixLanes : Obligations.ShdataDrivesTheSixLanes := by
  refine ⟨rfl, fun s b hm hp hr => ⟨fun ha => ?_, fun left ha => ?_⟩⟩
  · refine ⟨lanes s.fb b s.seq.row.toNat s.seq.col.toNat (thresh s), ?_, ?_⟩
    · have ht : (thresh s).toNat = min (s.seq.level.toNat * s.brightnessStep.toNat) 255 := by
        have := thresholdNat_le s.seq.level.toNat s.brightnessStep.toNat
        rw [thresh, BitVec.toNat_ofNat, Nat.mod_eq_of_lt (by omega), thresholdNat]
      have hon : ∀ v : Byte, isOn v (thresh s) = decide ((thresh s).toNat ≤ v.toNat) := fun v => rfl
      simp only [← ht, ← hon]
      exact getLsbD_laneBits ..
    · exact (execShdata_owned hr).trans (by rw [lineMicroOp_eq_lineDone hm hp ha, setField_rgb]; rfl)
  · exact ⟨_, setField_outside .rgb left s.pins,
      (execShdata_owned hr).trans (by rw [lineMicroOp_eq_lineHalted hm hp ha])⟩

/-- Settles O26. -/
theorem shclkhRaisesTheClock : Obligations.ShclkhRaisesTheClock :=
  drivesLine_of_lineMicroOp rfl (fun _ => rfl) fun s => setField_one (f := .clk) rfl s.pins

/-- Settles O27: SHCLKL moves on by `afterClock`. -/
theorem shclklLowersTheClockAndMovesOn : Obligations.ShclklLowersTheClockAndMovesOn :=
  drivesLine_of_lineMicroOp rfl (fun _ => rfl) fun s => setField_zero .clk s.pins

/-- Settles O28. -/
theorem blankRaisesOutputEnable : Obligations.BlankRaisesOutputEnable :=
  drivesLine_of_lineMicroOp rfl (fun _ => rfl) fun s => setField_one (f := .oe) rfl s.pins

/-- Settles O29. -/
theorem latlLowersTheLatch : Obligations.LatlLowersTheLatch :=
  drivesLine_of_lineMicroOp rfl (fun _ => rfl) fun s => setField_zero .lat s.pins

/-- Settles O30. -/
theorem lathRaisesTheLatch : Obligations.LathRaisesTheLatch :=
  drivesLine_of_lineMicroOp rfl (fun _ => rfl) fun s => setField_one (f := .lat) rfl s.pins

/-- Settles O31. -/
theorem addrSelectsTheRow : Obligations.AddrSelectsTheRow :=
  drivesLine_of_lineMicroOp rfl (fun _ => rfl) fun s => setField_addr s.seq.row s.pins

/-- Settles O32: UNBLANK moves on by `afterUnblank`. -/
theorem unblankLowersOutputEnableAndMovesOn : Obligations.UnblankLowersOutputEnableAndMovesOn :=
  drivesLine_of_lineMicroOp rfl (fun _ => rfl) fun s => setField_zero .oe s.pins

/-- Settles O33. -/
theorem endblankRaisesOutputEnable : Obligations.EndblankRaisesOutputEnable :=
  drivesLine_of_lineMicroOp rfl (fun _ => rfl) fun s => setField_one (f := .oe) rfl s.pins

/-- Settles O35, phase by phase: each meaning asks first whether it is enabled. -/
theorem disabledMicroOperationChangesNothing : Obligations.DisabledMicroOperationChangesNothing := by
  intro s p h
  cases p with
  | waitf | shdata | poll => exact if_neg (mt enabled_iff.1 h)
  | shclkh | shclkl | blank | latl | lath | addr | unblank | endblank =>
    exact congrArg _ (lineMicroOp_of_not_enabled h ..)

end Sys2Proof.Proofs
end

section
/-! PROOF. The scan: the writes of a row visit and of a full cycle in order, and what the reference panel sink makes of
them (42_panel_driver.md sections 1, 5 and 6). -/

namespace Sys2Proof.Proofs

open Sys2Proof.Machine Sys2Proof.Safety Sys2Proof.Claims

/-! ## The events of a list of writes -/

/-- The line levels after a list of writes that starts at `p`. -/
def levelsOf (p : Pins) (ws : List (Field × FieldVal)) : Pins := levelsAfter p (eventsOf p ws)

@[simp] theorem levelsOf_nil (p : Pins) : levelsOf p [] = p := rfl

@[simp] theorem levelsOf_cons (p : Pins) (f : Field) (v : FieldVal) (ws : List (Field × FieldVal)) :
    levelsOf p ((f, v) :: ws) = levelsOf (setField f v p) ws := rfl

theorem levelsOf_append (p : Pins) (xs ys : List (Field × FieldVal)) :
    levelsOf p (xs ++ ys) = levelsOf (levelsOf p xs) ys := by
  induction xs generalizing p with
  | nil => rfl
  | cons w xs ih => exact ih _

theorem eventsOf_append (p : Pins) (xs ys : List (Field × FieldVal)) :
    eventsOf p (xs ++ ys) = eventsOf p xs ++ eventsOf (levelsOf p xs) ys := by
  induction xs generalizing p with
  | nil => rfl
  | cons w xs ih => exact congrArg _ (ih _)

/-- Every write is one event (R163). -/
@[simp] theorem length_eventsOf (p : Pins) (ws : List (Field × FieldVal)) :
    (eventsOf p ws).length = ws.length := by
  induction ws generalizing p with
  | nil => rfl
  | cons w ws ih => exact congrArg _ (ih _)

/-! ## Paths of the sequencer -/

/-- From position `q` the Refresher of `s` makes the line writes `ws`, in order, and then stands at `q'`. -/
inductive ScanPath (s : State) : Seq → List (Field × FieldVal) → Seq → Prop
  | done (q : Seq) : ScanPath s q [] q
  | write {q q₁ q₂ : Seq} {f : Field} {v : FieldVal} {ws : List (Field × FieldVal)} :
    lineMove { s with seq := q } = some (f, v, q₁) → ScanPath s q₁ ws q₂ → ScanPath s q ((f, v) :: ws) q₂

theorem ScanPath.append {s : State} {q₁ q₂ q₃ : Seq} {xs ys : List (Field × FieldVal)} (hx : ScanPath s q₁ xs q₂)
    (hy : ScanPath s q₂ ys q₃) : ScanPath s q₁ (xs ++ ys) q₃ := by
  induction hx with
  | done => exact hy
  | write hl _ ih => exact .write hl (ih hy)

/-- A path is the same for any state that the line writes are read from in the same way. -/
theorem ScanPath.congr {s t : State} {q q' : Seq} {ws : List (Field × FieldVal)} (h : ScanPath s q ws q')
    (hsame : ∀ q, lineMove { t with seq := q } = lineMove { s with seq := q }) : ScanPath t q ws q' := by
  induction h with
  | done q => exact .done q
  | write hl _ ih => exact .write ((hsame _).trans hl) ih

/-- A loop of the sequencer: the writes `body k` lead from the start of round `k` to the start of round `k + 1`. -/
theorem scanPath_loop {s : State} {start : Nat → Seq} {body : Nat → List (Field × FieldVal)} {n : Nat}
    (h : ∀ k < n, ScanPath s (start k) (body k) (start (k + 1))) :
    ScanPath s (start 0) ((List.range n).flatMap body) (start n) := by
  induction n with
  | zero => exact .done _
  | succ n ih =>
    rw [List.range_succ, List.flatMap_append, List.flatMap_singleton]
    exact (ih fun k hk => h k (by omega)).append (h n (by omega))

/-! ## Running along a path -/

/-- The state after the line writes `ws`: only the lines, the trace, the position and what is listed have moved. -/
def scanned (ws : List (Field × FieldVal)) (q : Seq) (turns : List Turn) (answers : List PinAnswer) (s : State) :
    State :=
  { s with
    pins := levelsOf s.pins ws, trace := s.trace ++ eventsOf s.pins ws, seq := q, turns := turns,
    pinAnswers := answers }

theorem scanned_scanned (xs ys : List (Field × FieldVal)) (q₁ q₂ : Seq) (turns₁ turns₂ : List Turn)
    (answers₁ answers₂ : List PinAnswer) (s : State) :
    scanned ys q₂ turns₂ answers₂ (scanned xs q₁ turns₁ answers₁ s) = scanned (xs ++ ys) q₂ turns₂ answers₂ s := by
  simp only [scanned, levelsOf_append, eventsOf_append, List.append_assoc]

/-- One step of the Refresher whose turn is listed and whose write succeeds. -/
theorem step_of_lineMove {s : State} {f : Field} {v : FieldVal} {q : Seq} {n : Nat} {turns : List Turn}
    {answers : List PinAnswer} (hm : s.mode = .run) (hscan : ScansFor (n + 1) turns answers s)
    (hl : lineMove s = some (f, v, q)) :
    step s = .next (scanned [(f, v)] q (List.replicate n .refresher ++ turns) (List.replicate n .ok ++ answers) s) := by
  obtain ⟨hturns, hanswers⟩ := hscan
  rw [List.replicate_succ, List.cons_append] at hturns hanswers
  have hdrop := dropTurn_listed hturns
  have hfetch : fetch (nextTurn s) (dropTurn s) = .instr s.seq.phase.instr := by
    rw [fetch_refresher (nextTurn_listed hturns), fetchMicroOp_of_run hm]
  have hl' : lineMove (dropTurn s) = some (f, v, q) := by rw [hdrop]; exact hl
  rw [step_of_fetch_instr hfetch, ← dropTurn_seq s, exec_lineMove (by rw [dropTurn_mode, hm]) hl', hdrop,
    pinWrite_ok (pinAnswer_listed (by exact hanswers)), dropAnswer_listed (by exact hanswers)]
  rfl

/-- The machine follows a path of its sequencer, one step for each write. -/
theorem runSteps_scanPath {s : State} {q : Seq} {ws : List (Field × FieldVal)} {turns : List Turn}
    {answers : List PinAnswer} (hpath : ScanPath s s.seq ws q) (hm : s.mode = .run)
    (hscan : ScansFor ws.length turns answers s) :
    runSteps ws.length s = .next (scanned ws q turns answers s) := by
  induction ws generalizing s with
  | nil =>
    cases hpath
    obtain ⟨hturns, hanswers⟩ := hscan
    rw [List.length_nil, List.replicate_zero, List.nil_append] at hturns hanswers
    simp only [scanned, eventsOf, levelsOf_nil, List.append_nil, ← hturns, ← hanswers]
    rfl
  | cons w ws ih =>
    cases hpath with
    | @write _ q₁ _ f v _ hl hrest =>
      rw [List.length_cons, runSteps_succ _ (step_of_lineMove hm hscan hl),
        ih (s := scanned [(f, v)] q₁ _ _ s) (hrest.congr fun _ => rfl) hm ⟨rfl, rfl⟩, scanned_scanned]
      rfl

/-! ## The path of a row visit -/

/-- Where the shifting of column `k` starts, and BLANK after the last one (R166). -/
def columnStart (l : BitVec 8) (r : BitVec 5) (k : Nat) : Seq :=
  if k < 64 then ⟨.shdata, l, r, BitVec.ofNat 6 k⟩ else ⟨.blank, l, r, 63⟩

/-- SHDATA, SHCLKH, SHCLKL of one column, for the lanes of its row slot (R164, R165, R166). -/
theorem scanPath_column {s : State} {b : BufId} (hr : s.rOwn = some b) (l : BitVec 8) (r : BitVec 5) {c : Nat}
    (hc : c < 64) :
    ScanPath s (columnStart l r c)
      [(.rgb, lanes s.fb b r.toNat c (BitVec.ofNat 8 (thresholdNat l.toNat s.brightnessStep.toNat))), (.clk, 1),
        (.clk, 0)] (columnStart l r (c + 1)) := by
  have hcol : (BitVec.ofNat 6 c).toNat = c := by rw [BitVec.toNat_ofNat, Nat.mod_eq_of_lt hc]
  have hnext : afterClock ⟨.shclkl, l, r, BitVec.ofNat 6 c⟩ = columnStart l r (c + 1) := by
    simp only [afterClock, hcol, Config.cols, columnStart]
    split
    · next h => rw [if_pos (by omega)]; simp [BitVec.ofNat_add]
    · next h =>
      obtain rfl : c = 63 := by omega
      rfl
  rw [← hnext, columnStart, if_pos hc]
  refine .write (q₁ := ⟨.shclkh, l, r, BitVec.ofNat 6 c⟩) ?_ (.write rfl (.write rfl (.done _)))
  simp [lineMove, hr, hcol, thresh, Seq.inPhase]

/-- The writes of one row visit in order, and the position after it (R174). -/
theorem scanPath_row {s : State} {b : BufId} (hr : s.rOwn = some b) (l : BitVec 8) (r : BitVec 5) :
    ScanPath s ⟨.shdata, l, r, 0⟩
      (rowWrites s.fb b (BitVec.ofNat 8 (thresholdNat l.toNat s.brightnessStep.toNat)) r)
      (afterUnblank s.brightnessCount ⟨.unblank, l, r, 63⟩) := by
  have hcolumns := scanPath_loop fun c hc => scanPath_column hr l r (c := c) hc
  exact hcolumns.append (.write rfl (.write rfl (.write rfl (.write rfl (.write rfl (.done _))))))

theorem length_rowWrites (m : Memory) (b : BufId) (t : Byte) (r : BitVec 5) : (rowWrites m b t r).length = 197 := by
  simp [rowWrites]

/-! ## The path of a full cycle -/

/-- Where the visit of row `k` starts, and the next level or ENDBLANK after the last one (R171). -/
def rowStart (count l : BitVec 8) (k : Nat) : Seq :=
  if k < 32 then ⟨.shdata, l, BitVec.ofNat 5 k, 0⟩ else afterUnblank count ⟨.unblank, l, 31, 63⟩

/-- Where level `k + 1` starts, and ENDBLANK after the last one (R171). -/
def levelStart (count : BitVec 8) (k : Nat) : Seq :=
  if k < count.toNat then ⟨.shdata, BitVec.ofNat 8 (k + 1), 0, 0⟩ else ⟨.endblank, count, 31, 63⟩

theorem afterUnblank_eq_rowStart (count l : BitVec 8) {k : Nat} (hk : k < 32) :
    afterUnblank count ⟨.unblank, l, BitVec.ofNat 5 k, 63⟩ = rowStart count l (k + 1) := by
  by_cases h : k < 31
  · have hrow : (BitVec.ofNat 5 k).toNat = k := by rw [BitVec.toNat_ofNat, Nat.mod_eq_of_lt hk]
    simp [afterUnblank, rowStart, hrow, h, Config.addressableRows, BitVec.ofNat_add]
  · obtain rfl : k = 31 := by omega
    rfl

theorem rowStart_eq_levelStart (count : BitVec 8) {k : Nat} (hk : k < count.toNat) :
    rowStart count (BitVec.ofNat 8 (k + 1)) 32 = levelStart count (k + 1) := by
  have hcount := count.isLt
  have hlevel : (BitVec.ofNat 8 (k + 1)).toNat = k + 1 := by
    rw [BitVec.toNat_ofNat, Nat.mod_eq_of_lt (by omega)]
  simp only [rowStart, afterUnblank, levelStart, hlevel]
  by_cases h : k + 1 < count.toNat
  · simp [h, Config.addressableRows, BitVec.ofNat_add]
  · have hlast : BitVec.ofNat 8 (k + 1) = count := BitVec.eq_of_toNat_eq (by omega)
    simp [h, Config.addressableRows, Seq.inPhase, hlast]

/-- The writes of one level: every row in rising order. -/
theorem scanPath_level {s : State} {b : BufId} (hr : s.rOwn = some b) {k : Nat} (hk : k < s.brightnessCount.toNat) :
    ScanPath s (levelStart s.brightnessCount k)
      ((List.range 32).flatMap fun r =>
        rowWrites s.fb b (BitVec.ofNat 8 (thresholdNat (k + 1) s.brightnessStep.toNat)) (BitVec.ofNat 5 r))
      (levelStart s.brightnessCount (k + 1)) := by
  have hcount := s.brightnessCount.isLt
  have hlevel : (BitVec.ofNat 8 (k + 1)).toNat = k + 1 := by
    rw [BitVec.toNat_ofNat, Nat.mod_eq_of_lt (by omega)]
  rw [← rowStart_eq_levelStart _ hk, levelStart, if_pos hk]
  refine scanPath_loop (start := rowStart s.brightnessCount (BitVec.ofNat 8 (k + 1))) fun r hr32 => ?_
  have hrow := scanPath_row hr (BitVec.ofNat 8 (k + 1)) (BitVec.ofNat 5 r)
  rw [hlevel, afterUnblank_eq_rowStart _ _ hr32] at hrow
  rwa [rowStart, if_pos hr32]

/-- The writes of one full cycle in order, and POLL after it (R160, R174). -/
theorem scanPath_cycle {s : State} {b : BufId} (hr : s.rOwn = some b) (hcount : 1 ≤ s.brightnessCount.toNat) :
    ScanPath s cycleStart (cycleWrites s.fb b s.brightnessStep.toNat s.brightnessCount.toNat)
      ⟨.poll, s.brightnessCount, 31, 63⟩ := by
  have hlevels := scanPath_loop fun k hk => scanPath_level hr (k := k) hk
  have hfirst : levelStart s.brightnessCount 0 = cycleStart := if_pos hcount
  have hlast : levelStart s.brightnessCount s.brightnessCount.toNat = ⟨.endblank, s.brightnessCount, 31, 63⟩ :=
    if_neg (Nat.lt_irrefl _)
  rw [hfirst, hlast] at hlevels
  exact hlevels.append (.write rfl (.done _))

theorem length_cycleWrites (m : Memory) (b : BufId) (step count : Nat) :
    (cycleWrites m b step count).length = count * 32 * 197 + 1 := by
  simp [cycleWrites, length_rowWrites, Nat.mul_assoc]

/-- A full cycle ends with OE high (R172). -/
theorem oe_levelsOf_cycleWrites (p : Pins) (m : Memory) (b : BufId) (step count : Nat) :
    getField .oe (levelsOf p (cycleWrites m b step count)) = 1 := by
  rw [cycleWrites, levelsOf_append]
  exact getField_setField_one .oe _

/-! ## The reference panel sink (R177) -/

theorem sinkRun_append (k : PanelSink) (xs ys : List LineEvent) :
    sinkRun k (xs ++ ys) = sinkRun (sinkRun k xs) ys := List.foldl_append

/-- One column shifts its lanes in, whatever the levels before it. -/
theorem sinkRun_column (k : PanelSink) (p : Pins) (v : FieldVal) :
    sinkRun k (eventsOf p [(.rgb, v), (.clk, 1), (.clk, 0)]) = { k with shift := v :: k.shift.dropLast } := by
  simp [sinkRun, eventsOf, sinkStep, getField_setField_other]

/-- The columns shift their lanes in one after the other. -/
theorem sinkRun_columns (k : PanelSink) (p : Pins) (lane : Nat → FieldVal) (cs : List Nat) :
    sinkRun k (eventsOf p (cs.flatMap fun c => [(.rgb, lane c), (.clk, 1), (.clk, 0)])) =
      { k with shift := (cs.map lane).foldl (fun sh v => v :: sh.dropLast) k.shift } := by
  induction cs generalizing k p with
  | nil => rfl
  | cons c cs ih =>
    rw [List.flatMap_cons, eventsOf_append, sinkRun_append, sinkRun_column, ih]
    rfl

/-- A shift register keeps the newest values, newest first. -/
theorem foldl_shift_eq_take {sh : List FieldVal} (hsh : sh ≠ []) (vs : List FieldVal) :
    vs.foldl (fun sh v => v :: sh.dropLast) sh = (vs.reverse ++ sh).take sh.length := by
  induction vs using List.reverseRecOn with
  | nil => simp
  | append_singleton vs v ih =>
    obtain ⟨n, hn⟩ := Nat.exists_eq_succ_of_ne_zero (List.length_pos_iff.2 hsh).ne'
    have hdrop : ((vs.reverse ++ sh).take (n + 1)).dropLast = (vs.reverse ++ sh).take n := by
      rw [List.dropLast_eq_take, List.take_take, List.length_take_of_le] <;> simp [hn]
    rw [List.foldl_append, ih, hn, List.foldl_cons, List.foldl_nil, hdrop, List.reverse_concat]
    rfl

/-- The last five writes of a row visit latch the shift register as it is. -/
theorem sinkRun_latch (k : PanelSink) (p : Pins) (row : FieldVal) :
    (sinkRun k (eventsOf p [(.oe, 1), (.lat, 0), (.lat, 1), (.addr, row), (.oe, 0)])).latched = k.shift := by
  simp [sinkRun, eventsOf, sinkStep]

/-! ## The statements -/

/-- Settles O55: the run follows the path of the row visit. -/
theorem rowVisitMakesItsWritesInOrder : Obligations.RowVisitMakesItsWritesInOrder := by
  intro s b l r turns answers hm hq hr hscan
  have hpath := scanPath_row hr l r
  rw [← hq] at hpath
  have ht : BitVec.ofNat 8 (thresholdNat l.toNat s.brightnessStep.toNat) = thresh s := by rw [thresh, hq]
  rw [ht] at hpath
  have hrun := runSteps_scanPath hpath hm (by rwa [length_rowWrites])
  rw [length_rowWrites] at hrun
  exact ⟨_, hrun, rfl, rfl, rfl, rfl⟩

/-- Settles O56: the run follows the path of the full cycle; a configured engine has at least one level. -/
theorem fullCycleMakesItsWritesInOrder : Obligations.FullCycleMakesItsWritesInOrder := by
  intro s b turns answers hcfg hm hq hr hscan
  have hpath := scanPath_cycle hr (one_le_brightnessCount hm hcfg)
  have hlen := length_cycleWrites s.fb b s.brightnessStep.toNat s.brightnessCount.toNat
  rw [show cycleStart = s.seq from hq.symm] at hpath
  have hrun := runSteps_scanPath hpath hm (by rwa [hlen])
  rw [hlen] at hrun
  refine ⟨_, hrun, rfl, rfl, ?_, oe_levelsOf_cycleWrites .., rfl⟩
  rw [scanned, List.length_append, length_eventsOf, hlen]

/-- Settles O57: 64 columns fill the 64 places of the shift register, and LATH latches them. -/
theorem panelLatchesTheRowJustShifted : Obligations.PanelLatchesTheRowJustShifted := by
  intro k p m b t r hk
  have hne : k.shift ≠ [] := List.length_pos_iff.1 (by omega)
  rw [rowWrites, eventsOf_append, sinkRun_append, sinkRun_latch, sinkRun_columns, foldl_shift_eq_take hne]
  simp [hk]

end Sys2Proof.Proofs
end

section
/-! PROOF. The buffer exchange: PUBLISH and ACQUIRE, the swap of WAITF and POLL, where a step leaves the sequencer, a
whole hand-off, and the ACQUIRE that hangs after an error (43_buffer_exchange.md sections 2 to 4, 60_exceptions.md
section 6). -/

namespace Sys2Proof.Proofs

open Sys2Proof.Machine Sys2Proof.Safety Sys2Proof.Claims

/-! ## Encodings -/

theorem decodeC96_of_opPublish {w : Cmd} (h : cmdOp w = 0x20) :
    decodeC96 w = whenZero (noColor w && noOrigin w && noSize w) "PUBLISH" .publish := by
  simp [decodeC96, h]

theorem decodeC96_of_opAcquire {w : Cmd} (h : cmdOp w = 0x21) :
    decodeC96 w = whenZero (noColor w && noOrigin w && noSize w) "ACQUIRE" .acquire := by
  simp [decodeC96, h]

/-! ## PUBLISH and ACQUIRE (R202, R203) -/

theorem exec_publish_owned {s : State} {b : BufId} (h : s.cOwn = some b) :
    exec .publish s = .next { completed 0x0000 s with toR := some b, cOwn := none } :=
  execPublish_owned h

theorem exec_acquire_taken {s : State} {b : BufId} (hc : s.cOwn = none) (ht : s.toC = some b) :
    exec .acquire s = .next { completed (b.setWidth 16) s with toC := none, cOwn := some b } := by
  obtain ⟨hn, -⟩ | ⟨-, hn, -⟩ | ⟨b', -, hb', h⟩ := execAcquire_cases s
  · exact absurd hc hn
  · simp [hn] at ht
  · obtain rfl : b' = b := Option.some.inj (hb'.symm.trans ht)
    refine h.trans ?_
    rw [respond, respWord_ok_bufData, completed]

theorem exec_acquire_held {s : State} (hc : s.cOwn = none) (ht : s.toC = none) : exec .acquire s = .next s := by
  obtain ⟨hn, -⟩ | ⟨-, -, h⟩ | ⟨b, -, hb, -⟩ := execAcquire_cases s
  · exact absurd hc hn
  · exact h
  · simp [hb] at ht

theorem exec_acquire_refused {s : State} (hc : s.cOwn ≠ none) : exec .acquire s = .next (completed 0x0200 s) := by
  obtain ⟨-, h⟩ | ⟨hn, -⟩ | ⟨_, hn, -⟩ := execAcquire_cases s
  · exact h
  all_goals exact absurd hn hc

/-! ## WAITF and POLL (R205, R206, R207) -/

/-- With a frame waiting, WAITF and POLL do the same: the swap, and the first position of a cycle. -/
theorem exec_swap {s : State} {p : Phase} {n old : BufId} (hp : p = .waitf ∨ p = .poll) (hm : s.mode = .run)
    (hq : s.seq.phase = p) (hn : s.toR = some n) (ho : s.rOwn = some old) :
    exec p.instr s = .next { s with toR := none, toC := some old, rOwn := some n, seq := cycleStart } := by
  subst hq
  have hnoLine : lineMove s = none := by
    obtain hp | hp := hp <;> simp [lineMove, hp]
  obtain ⟨hnone, -⟩ | ⟨t, ht, hc⟩ := exec_microOp hm
  · simp [hnone] at ho
  · cases hc with
    | held _ hnone | again _ hnone => simp [hnone] at hn
    | written _ _ _ hl | failed _ _ _ _ hl => simp [hnoLine] at hl
    | swapped n' old' _ hn' ho' =>
      obtain rfl : n' = n := Option.some.inj (hn'.symm.trans hn)
      obtain rfl : old' = old := Option.some.inj (ho'.symm.trans ho)
      exact ht

/-- WAITF has no step without RUN or without a frame. -/
theorem exec_waitf_held {s : State} (h : ¬(s.mode = .run ∧ s.toR ≠ none)) : exec .waitf s = .next s := by
  rw [exec, execWaitf]
  split
  next hen =>
    have ht : s.toR = none := by
      by_contra hne
      exact h ⟨(enabled_iff.1 hen).1, hne⟩
    rw [ht]
  next => rfl

theorem exec_poll_again {s : State} (hm : s.mode = .run) (hq : s.seq.phase = .poll) (ht : s.toR = none) :
    exec .poll s = .next { s with seq := cycleStart } := by
  rw [exec, execPoll, if_pos (enabled_iff.2 ⟨hm, hq⟩), ht]

/-! ## Where a step leaves the sequencer -/

/-- SEQ stays, goes to the first position of a cycle, or goes on behind the line write of the selected
micro-operation. -/
theorem seq_step {s t : State} (h : step s = .next t) :
    t.seq = s.seq ∨ t.seq = cycleStart ∨ ∃ f v, lineMove (dropTurn s) = some (f, v, t.seq) := by
  obtain rfl | ⟨-, hc⟩ | ⟨-, -, hc⟩ := moves_of_step h
  · exact .inl (dropTurn_seq s)
  · exact .inl ((refresher_commandMove hc).1.trans (dropTurn_seq s))
  · cases hc with
    | held => exact .inl (dropTurn_seq s)
    | failed => exact .inl (by simp)
    | again | swapped => exact .inr (.inl rfl)
    | written f v _ hl => exact .inr (.inr ⟨f, v, hl⟩)

/-- The only line write that leads to POLL is ENDBLANK's. -/
theorem phase_of_lineMove_poll {s : State} {f : Field} {v : FieldVal} {next : Seq}
    (hl : lineMove s = some (f, v, next)) (hp : next.phase = .poll) : s.seq.phase = .endblank := by
  have hq := lineMove_next hl
  cases hs : s.seq.phase <;> simp only [hs, List.mem_cons, List.not_mem_nil, Prod.mk.injEq, reduceCtorEq, true_and,
    false_and, false_or, or_false] at hq
  case endblank => rfl
  case shclkl => rw [hq, afterClock] at hp; split at hp <;> simp at hp
  case unblank => rw [hq, afterUnblank] at hp; split at hp <;> [skip; split at hp] <;> simp at hp
  all_goals simp [hq] at hp

/-! ## The held ACQUIRE (R252) -/

/-- In an error an ACQUIRE with nothing to take leaves a step nothing but the turn: the Compositor is held, and the
Refresher, which alone fills TO_C, has no step. -/
theorem step_of_heldAcquire {s : State} {w : Cmd} {rest : List Cmd} (hm : s.mode = .cfgErr ∨ s.mode = .halted)
    (hc : s.cOwn = none) (ht : s.toC = none) (hport : s.port = w :: rest) (hd : decodeC96 w = .ok .acquire) :
    step s = .next (dropTurn s) := by
  obtain h | ⟨-, ⟨w', rest', why, hport', hd'⟩, -⟩ | ⟨-, w', rest', i, hport', hd', h⟩ | ⟨-, hr, -⟩ := step_cases s
  · exact h
  · obtain ⟨rfl, -⟩ := List.cons.inj (hport.symm.trans hport')
    rw [hd] at hd'
    cases hd'
  · obtain ⟨rfl, -⟩ := List.cons.inj (hport.symm.trans hport')
    obtain rfl : Instr.acquire = i := Except.ok.inj (hd.symm.trans hd')
    exact h.trans (exec_acquire_held (by simpa using hc) (by simpa using ht))
  · simp [hr] at hm

/-! ## The statements -/

/-- Settles O37. -/
theorem publishHandsTheBufferOver : Obligations.PublishHandsTheBufferOver :=
  ⟨commandForm_of_whenZero (fun _ => decodeC96_of_opPublish) noOperands_iff, fun _ =>
    ⟨fun _ => exec_publish_owned, execPublish_unowned⟩⟩

/-- Settles O38. -/
theorem acquireTakesHoldsOrIsRefused : Obligations.AcquireTakesHoldsOrIsRefused :=
  ⟨commandForm_of_whenZero (fun _ => decodeC96_of_opAcquire) noOperands_iff, fun _ =>
    ⟨fun _ => exec_acquire_taken, exec_acquire_held, exec_acquire_refused⟩⟩

/-- Settles O39: no cycle starts at WAITF, and no line write leads there. -/
theorem waitfAdoptsTheFirstFrame : Obligations.WaitfAdoptsTheFirstFrame := by
  refine ⟨rfl, fun s hq => ⟨fun n old hm hn ho => exec_swap (.inl rfl) hm hq hn ho, exec_waitf_held⟩,
    fun s t hst hs => ?_⟩
  obtain hseq | hseq | ⟨f, v, hl⟩ := seq_step hst
  · rwa [hseq]
  · simp [hseq, cycleStart]
  · exact (phase_of_lineMove hl).2

/-- Settles O40: no cycle starts at POLL, and only ENDBLANK's line write leads there. -/
theorem pollSwapsOrScansAgain : Obligations.PollSwapsOrScansAgain := by
  refine ⟨rfl, fun s hm hq => ⟨fun n old => exec_swap (.inr rfl) hm hq, exec_poll_again hm hq⟩,
    fun s t hst hp => ?_⟩
  obtain hseq | hseq | ⟨f, v, hl⟩ := seq_step hst
  · exact .inl (hseq ▸ hp)
  · simp [hseq, cycleStart] at hp
  · exact .inr (by simpa using phase_of_lineMove_poll hl hp)

/-- Settles O43: each instruction fills the slot that the next one takes from. -/
theorem handOffExchangesTheBuffers : Obligations.HandOffExchangesTheBuffers := by
  intro s a b p hp hm hq hc hr _ _
  exact ⟨_, _, _, exec_publish_owned hc, exec_swap hp hm hq rfl hr, exec_acquire_taken rfl rfl,
    rfl, rfl, rfl, rfl, rfl, rfl⟩

/-- Settles O51, by induction on the number of steps, each of which takes only its turn. -/
theorem heldAcquireHangsAfterAnError : Obligations.HeldAcquireHangsAfterAnError := by
  intro k
  induction k with
  | zero => exact fun s _ _ _ hc ht _ _ => ⟨s, rfl, rfl, rfl, hc, ht⟩
  | succ k ih =>
    intro s w rest hm hc ht hport hd
    obtain ⟨t, hrun, hkeep⟩ := ih (dropTurn s) w rest (by simpa using hm) (by simpa using hc) (by simpa using ht)
      (by simpa using hport) hd
    exact ⟨t, (runSteps_succ k (step_of_heldAcquire hm hc ht hport hd)).trans hrun, by simpa using hkeep⟩

end Sys2Proof.Proofs
end

section
/-! PROOF. The refusals ILLEGAL_CMD and OWNERSHIP, PinError entry, and the rights of the two agents (60_exceptions.md
sections 1, 8 and 11). -/

namespace Sys2Proof.Proofs

open Sys2Proof.Machine Sys2Proof.Claims

/-! ## Illegal words (R236) -/

/-- A word that selects no row of the match and mask table does not decode, since a command selects its own row. -/
theorem exists_reject_of_no_row {w : Cmd} (h : ∀ r ∈ commandRows, w &&& r.mask ≠ r.pattern) :
    ∃ why, decodeC96 w = .error why := by
  cases hd : decodeC96 w with
  | error why => exact ⟨why, rfl⟩
  | ok i =>
    have hnone : (commandRows.filter fun r => w &&& r.mask = r.pattern) = [] :=
      List.filter_eq_nil_iff.2 fun r hr => by simpa using h r hr
    have hrow := (matchAndMaskSelectTheCommand w).1 i hd
    rw [hnone] at hrow
    cases hrow

theorem fetchCommand_of_reject {w : Cmd} {why : Reject} (hd : decodeC96 w = .error why) (rest : List Cmd) :
    fetchCommand (w :: rest) = .illegal why := by
  simp only [fetchCommand, hd]

theorem step_of_fetch_illegal {s : State} {why : Reject} (h : fetch (nextTurn s) (dropTurn s) = .illegal why) :
    step s = .next (refuseIllegal (dropTurn s)) := by
  simp only [step, h]

/-! ## PinError (R239) -/

/-- A line-writing phase of a Refresher that owns a buffer writes the line that the table of R101 names. -/
theorem lineMove_of_lineOf {s : State} {f : Field} (hf : lineOf s.seq.phase = some f) (hr : s.rOwn ≠ none) :
    ∃ v next, lineMove s = some (f, v, next) := by
  unfold lineMove
  cases hp : s.seq.phase <;> simp only [hp, lineOf, Option.some.injEq, reduceCtorEq] at hf
  case shdata =>
    obtain ⟨b, hb⟩ := Option.ne_none_iff_exists'.1 hr
    exact ⟨_, _, by rw [hb, ← hf]; rfl⟩
  all_goals exact ⟨_, _, by rw [hf]⟩

theorem pinWrite_eq_lineHalted {s : State} {left : FieldVal} (ha : pinAnswer s = .failed left) (f : Field)
    (v : FieldVal) (next : Seq) : pinWrite f v next s = lineHalted (setField f left s.pins) s := by
  rw [pinWrite_failed ha, raisePinError, dropAnswer_pins, dropAnswer_eq_answered]
  rfl

/-- The table of R29, as the statements and as the model write it. -/
theorem linesOf_eq (f : Field) : linesOf f = (f.low, f.width) := by cases f <;> rfl

/-! ## The rights of the Refresher (R246) -/

/-- No micro-operation touches what belongs to the Compositor. -/
theorem compositor_scanMove {s t : State} (hc : ScanMove s t) :
    t.fb = s.fb ∧ t.cOwn = s.cOwn ∧ t.resp = s.resp ∧ t.port = s.port ∧ t.bitDepth = s.bitDepth ∧
      t.brightnessStep = s.brightnessStep ∧ t.brightnessCount = s.brightnessCount := by
  cases hc with
  | written | failed => simp
  | held | again | swapped => exact ⟨rfl, rfl, rfl, rfl, rfl, rfl, rfl⟩

/-! ## The statements -/

/-- Settles O7: the word does not decode, and the refusal of a word that does not decode is ILLEGAL_CMD. -/
theorem unmatchedWordIsIllegal : Obligations.UnmatchedWordIsIllegal := by
  intro s w rest ht hport hno
  obtain ⟨why, hd⟩ := exists_reject_of_no_row hno
  have hf : fetch (nextTurn s) (dropTurn s) = .illegal why := by
    rw [fetch_compositor ht, hport, fetchCommand_of_reject hd]
  rw [step_of_fetch_illegal hf, refuseIllegal, respond, dropTurn_port, hport]
  rfl

/-- Settles O34: every line-writing micro-operation is one line write, and a write that fails changes its field only. -/
theorem failedLineWriteHalts : Obligations.FailedLineWriteHalts := by
  intro s f left hm hf hr ha
  obtain ⟨v, next, hl⟩ := lineMove_of_lineOf hf hr
  refine ⟨setField f left s.pins, ?_, fun k hk => ?_, rfl⟩
  · rw [exec_lineMove hm hl, pinWrite_eq_lineHalted ha]
  · rw [linesOf_eq, getLsbD_setField f left s.pins hk]

/-- Settles O42, command by command. -/
theorem ownershipRefusalChangesNothing : Obligations.OwnershipRefusalChangesNothing := by
  rintro s i (⟨hc, ⟨x, y, c, rfl⟩ | ⟨x, y, w, h, c, rfl⟩ | rfl | rfl | rfl⟩ | ⟨hc, rfl⟩)
  · exact execSet_unowned hc x y c
  · exact execFill_unowned hc x y w h c
  · exact execClear_unowned hc
  · exact execGetbuf_unowned hc
  · exact execPublish_unowned hc
  · exact exec_acquire_refused hc

/-- Settles O52: the turn itself touches no register, the Compositor's turn makes a command's move, and the Refresher's
turn a micro-operation's. -/
theorem agentsKeepToTheirRights : Obligations.AgentsKeepToTheirRights := by
  intro s t hst
  obtain rfl | ⟨hn, hc⟩ | ⟨hn, -, hc⟩ := moves_of_step hst
  · simp
  · exact ⟨fun _ => by simpa using refresher_commandMove hc, fun hr => by simp [hn] at hr⟩
  · exact ⟨fun hr => by simp [hn] at hr, fun _ => by simpa using compositor_scanMove hc⟩

end Sys2Proof.Proofs
end

section
/-! PROOF. The half-scale channel at bit depth 4, the end-to-end scenario of 41_brightness_encoder.md section 4. -/

namespace Sys2Proof.Proofs

/-- GammaHalf says exactly that the top four bits of GAMMA[128] are 2. -/
theorem topBits_gammaHalf (g : GammaTable) : (g.get 128).toNat >>> (8 - 4) = 2 := by
  have hlow := g.halfLow
  have hhigh := g.halfHigh
  rw [Nat.shiftRight_eq_div_pow]
  omega

/-- Settles O24: an intensity is ON up to the level its top bits name, and those of GAMMA[128] name level 2. -/
theorem halfScaleIsOffFromLevelThree : Obligations.HalfScaleIsOffFromLevelThree := by
  intro l _ hl
  have hon := isOn_threshold_iff (d := 4) (by decide) hl (Config.gamma.get 128)
  rw [topBits_gammaHalf] at hon
  exact Bool.eq_iff_iff.2 (hon.trans decide_eq_true_iff.symm)

end Sys2Proof.Proofs
end
